-- ==== Sys2Proof/Word.lean ====
section
/-! DEFINITION. The word types of the FXC-SF block (00_scope.md rules R7 and R8). -/

namespace Sys2Proof

/-- A register, a bus word or a command word: 32 bits. -/
abbrev Word := BitVec 32

/-- One payload field: 16 bits, read as s16 or u16 (R8). -/
abbrev Half := BitVec 16

/-- One byte of a packet or payload buffer. -/
abbrev Byte := BitVec 8

/-- A byte offset into the block's 2 KiB register window (R60): 11 bits. -/
abbrev Offset := BitVec 11

end Sys2Proof
end

