-- ==== Sys2Proof/Config.lean ====
section
/-! DEFINITION. The parameters of the block (00_scope.md rule R6): the fixed ones with D00's values, the OPEN ones
and the NaN draw as constants without a body. -/

namespace Sys2Proof

/-- SF_VARIANT (R6): the compile-time form of the safety filter. -/
inductive SfVariant where
  | disabled
  | pos
  | att
  | attIt
  deriving DecidableEq, Repr, Inhabited

/-- The number of a variant, the content of CONFIG[1:0] (R6, R22). -/
def SfVariant.code : SfVariant → Nat
  | .disabled => 0
  | .pos => 1
  | .att => 2
  | .attIt => 3

/-- PAYLOAD_LEN(SF_VARIANT) in bytes (R6). -/
def SfVariant.payloadLen : SfVariant → Nat
  | .disabled => 0
  | .pos => 20
  | .att => 16
  | .attIt => 20

/-- PKT_LEN = 1 + PAYLOAD_LEN (R6, R120). -/
def SfVariant.pktLen (v : SfVariant) : Nat := 1 + v.payloadLen

/-- CMP_PRODUCT (R6, R150): how the product x * 1000 of a compress is formed. -/
inductive CmpProduct where
  /-- a binary32 round-to-nearest-even multiply -/
  | fp32Rne
  /-- exact arithmetic, the named alternative -/
  | exact
  deriving DecidableEq, Repr

namespace Config

/-- SF_VARIANT is OPEN (R6, I6): fixed for the life of the block, its value not given. -/
opaque sfVariant : SfVariant

/-- K9_INIT is OPEN (R6, I5): the 4x9 reset gains, whose values D00 does not give. -/
opaque k9Init : Vector (Vector Word 9) 4

/-- K6_INIT is OPEN (R6, I5): the 4x6 reset gains, whose values D00 does not give. -/
opaque k6Init : Vector (Vector Word 6) 4

/-- BASE is OPEN (R6, I7): the byte address of the register window in the host's address space. -/
opaque base : Nat

/-- The NAN_RESULT draw (R6, R225, I3): the sign and the 22 payload bits of the n-th drawn quiet NaN, left free. -/
opaque nanDraw : Nat → BitVec 23

/-- HEADER (R6, R121): the byte 0x56, ASCII 'V'. -/
def header : Byte := 0x56

/-- THRESH (R6): the missed-cycle threshold. -/
def thresh : Nat := 200

/-- BAUD (R6): passed to the transport in LinkStart. -/
def baud : Nat := 115200

/-- SCALE (R6) as a binary32 word: 1000.0 (R150, R155). -/
def scale : Word := 0x447A0000

/-- SCALE (R6) as an integer, for the exact product. -/
def scaleInt : Nat := 1000

/-- CMP_PRODUCT has the value FP32_RNE (R6, D8). -/
def cmpProduct : CmpProduct := .fp32Rne

end Config

end Sys2Proof
end

