-- ==== Sys2Proof/Syntax.lean ====
section
/-! DEFINITION. The commands of the block (30_encoding.md rule R95), one constructor per row of the opcode table. -/

namespace Sys2Proof

/-- A data register number: RD and RS name D[0..15], all sixteen valid (R93). -/
abbrev DReg := Fin 16

/-- The BANK operand of SETK (R92): 0 = K9, 1 = K6. -/
inductive Bank where
  | k9
  | k6
  deriving DecidableEq, Repr

/-- The columns of a bank: N9 = 9, N6 = 6 (R6). -/
def Bank.cols : Bank → Nat
  | .k9 => 9
  | .k6 => 6

/-- A command (R3, R95). The numeric immediates OFF, SIZE and J are numbers an assembler must hold to their fields
(R99); `WellFormed` says so. The row I and the mode M have no value outside their field. -/
inductive Instr where
  /-- `NOP` (R250) -/
  | nop
  /-- `CMP Drd, Drs` (R152) -/
  | cmp (rd rs : DReg)
  /-- `EXP Drd, Drs` (R156) -/
  | exp (rd rs : DReg)
  /-- `CMPST off, Drs` (R160) -/
  | cmpst (off : Nat) (rs : DReg)
  /-- `LDEXP Drd, off` (R164) -/
  | ldexp (rd : DReg) (off : Nat)
  /-- `PACK size` (R125) -/
  | pack (size : Nat)
  /-- `UNPACK` (R130) -/
  | unpack
  /-- `CLRPAY` (R133) -/
  | clrpay
  /-- `MATVEC` (R220) -/
  | matvec
  /-- `SETK bank, i, j, Drs` (R226) -/
  | setk (bank : Bank) (i : Fin 4) (j : Nat) (rs : DReg)
  /-- `SETMODE m` (R251): true is M = 1, the 6-state law -/
  | setmode (lqr6 : Bool)
  /-- `SFCYCLE` (R181) -/
  | sfcycle
  deriving DecidableEq, Repr

end Sys2Proof
end

