-- ==== Sys2Proof/WellFormed.lean ====
section
/-! DEFINITION. Which commands an assembler accepts (30_encoding.md rule R99): every operand inside its field. -/

namespace Sys2Proof

/-- R99: OFF at most 31, SIZE at most 255, J at most 15; the other operands have no value outside their field.
The checks that depend on the variant or the bank are the command's own (R92), not this one. -/
abbrev Instr.WellFormed : Instr → Prop
  | .cmpst off _ => off ≤ 31
  | .ldexp _ off => off ≤ 31
  | .pack size => size ≤ 255
  | .setk _ _ j _ => j ≤ 15
  | .nop | .cmp _ _ | .exp _ _ | .unpack | .clrpay | .matvec | .setmode _ | .sfcycle => True

end Sys2Proof
end

