-- ==== Sys2Proof/Decode.lean ====
section
/-! DEFINITION. Decoding of command words by the opcode map (30_encoding.md rules R90 to R98), and the encoder of the
assembler's table (R99). -/

namespace Sys2Proof

/-- The rows of the opcode map (R95). -/
inductive Opcode where
  | nop | cmp | exp | cmpst | ldexp | pack | unpack | clrpay | matvec | setk | setmode | sfcycle
  deriving DecidableEq, Repr

/-- The rows in the order of R95's table. -/
def allOpcodes : List Opcode :=
  [.nop, .cmp, .exp, .cmpst, .ldexp, .pack, .unpack, .clrpay, .matvec, .setk, .setmode, .sfcycle]

/-- The mask column of R95: a 1 at every fixed bit. -/
def opcodeMask : Opcode → Word
  | .nop => 0xFFFFFFFF
  | .cmp => 0xFF00FFFF
  | .exp => 0xFF00FFFF
  | .cmpst => 0xFFF0FFE0
  | .ldexp => 0xFF0FFFE0
  | .pack => 0xFFFFFF00
  | .unpack => 0xFFFFFFFF
  | .clrpay => 0xFFFFFFFF
  | .matvec => 0xFFFFFFFF
  | .setk => 0xFFF0ECF0
  | .setmode => 0xFFFFFFFE
  | .sfcycle => 0xFFFFFFFF

/-- The match column of R95: the value of the fixed bits. -/
def opcodeMatch : Opcode → Word
  | .nop => 0x00000000
  | .cmp => 0x01000000
  | .exp => 0x02000000
  | .cmpst => 0x03000000
  | .ldexp => 0x04000000
  | .pack => 0x05000000
  | .unpack => 0x06000000
  | .clrpay => 0x07000000
  | .matvec => 0x10000000
  | .setk => 0x11000000
  | .setmode => 0x12000000
  | .sfcycle => 0x20000000

/-- R96: the word is of this row. -/
abbrev rowMatches (o : Opcode) (w : Word) : Prop := w &&& opcodeMask o = opcodeMatch o

/-- The RD field, bits 23:20 (R91). -/
def fieldRd (w : Word) : DReg := (w.extractLsb' 20 4).toFin

/-- The RS field, bits 19:16 (R91). -/
def fieldRs (w : Word) : DReg := (w.extractLsb' 16 4).toFin

/-- The OFF field of CMPST and LDEXP, IMM[4:0], zero-extended (R92). -/
def fieldOff (w : Word) : Nat := (w.extractLsb' 0 5).toNat

/-- The SIZE field of PACK, IMM[7:0], zero-extended (R92). -/
def fieldSize (w : Word) : Nat := (w.extractLsb' 0 8).toNat

/-- The J field of SETK, IMM[3:0] (R92). -/
def fieldCol (w : Word) : Nat := (w.extractLsb' 0 4).toNat

/-- The I field of SETK, IMM[9:8] (R92). -/
def fieldRow (w : Word) : Fin 4 := (w.extractLsb' 8 2).toFin

/-- The BANK field of SETK, IMM[12] (R92): 0 = K9, 1 = K6. -/
def fieldBank (w : Word) : Bank := if w.getLsbD 12 then .k6 else .k9

/-- The command of a word of the given row, its operands read from the row's fields (R91, R92). -/
def operandsOf : Opcode → Word → Instr
  | .nop, _ => .nop
  | .cmp, w => .cmp (fieldRd w) (fieldRs w)
  | .exp, w => .exp (fieldRd w) (fieldRs w)
  | .cmpst, w => .cmpst (fieldOff w) (fieldRs w)
  | .ldexp, w => .ldexp (fieldRd w) (fieldOff w)
  | .pack, w => .pack (fieldSize w)
  | .unpack, _ => .unpack
  | .clrpay, _ => .clrpay
  | .matvec, _ => .matvec
  | .setk, w => .setk (fieldBank w) (fieldRow w) (fieldCol w) (fieldRs w)
  | .setmode, w => .setmode (w.getLsbD 0)
  | .sfcycle, _ => .sfcycle

/-- Why a word is illegal (R97). -/
inductive IllegalWord where
  /-- bits 31:24 are no OP of the table -/
  | unassignedOp (op : Byte)
  /-- the OP is listed but a reserved bit is not zero -/
  | reservedBits (o : Opcode)
  deriving DecidableEq, Repr

/-- What a word decodes to: exactly one command, or illegal (R96). -/
inductive Decoded where
  | command (i : Instr)
  | illegal (why : IllegalWord)
  deriving DecidableEq, Repr

/-- The OP field, bits 31:24 (R91). -/
def fieldOp (w : Word) : Byte := w.extractLsb' 24 8

/-- Names the reason a word matches no row (R97). -/
def illegalReason (w : Word) : IllegalWord :=
  match allOpcodes.find? (fun o => decide (fieldOp w = fieldOp (opcodeMatch o))) with
  | some o => .reservedBits o
  | none => .unassignedOp (fieldOp w)

/-- The decoder (R96): total on 32-bit words. -/
def decode (w : Word) : Decoded :=
  match allOpcodes.find? (fun o => decide (rowMatches o w)) with
  | some o => .command (operandsOf o w)
  | none => .illegal (illegalReason w)

/-- The decoder on a row of the opcode table: a command is one 32-bit word (R90), so a row of at most 32 bits is that
word with its upper bits zero, and a longer one is none. -/
def decodeTableWord (nbits w : Nat) : Option Instr :=
  if nbits ≤ 32 then
    match decode (BitVec.ofNat 32 (w % 2 ^ nbits)) with
    | .command i => some i
    | .illegal _ => none
  else none

/-- A register number in the RD place (R99: rd<<20). -/
def placeRd (rd : DReg) : Word := BitVec.ofNat 32 rd.val <<< 20

/-- A register number in the RS place (R99: rs<<16). -/
def placeRs (rs : DReg) : Word := BitVec.ofNat 32 rs.val <<< 16

/-- A bank in its place (R99: bank<<12). -/
def placeBank : Bank → Word
  | .k9 => 0
  | .k6 => 0x1000

/-- The encoder: the words of R99's assembler table. -/
def encode : Instr → Word
  | .nop => 0x00000000
  | .cmp rd rs => 0x01000000 ||| placeRd rd ||| placeRs rs
  | .exp rd rs => 0x02000000 ||| placeRd rd ||| placeRs rs
  | .cmpst off rs => 0x03000000 ||| placeRs rs ||| BitVec.ofNat 32 off
  | .ldexp rd off => 0x04000000 ||| placeRd rd ||| BitVec.ofNat 32 off
  | .pack size => 0x05000000 ||| BitVec.ofNat 32 size
  | .unpack => 0x06000000
  | .clrpay => 0x07000000
  | .matvec => 0x10000000
  | .setk bank i j rs =>
      0x11000000 ||| placeRs rs ||| placeBank bank ||| (BitVec.ofNat 32 i.val <<< 8) ||| BitVec.ofNat 32 j
  | .setmode lqr6 => if lqr6 then 0x12000001 else 0x12000000
  | .sfcycle => 0x20000000

/-- The row of R95 a command belongs to. -/
def opcodeOf : Instr → Opcode
  | .nop => .nop
  | .cmp _ _ => .cmp
  | .exp _ _ => .exp
  | .cmpst _ _ => .cmpst
  | .ldexp _ _ => .ldexp
  | .pack _ => .pack
  | .unpack => .unpack
  | .clrpay => .clrpay
  | .matvec => .matvec
  | .setk _ _ _ _ => .setk
  | .setmode _ => .setmode
  | .sfcycle => .sfcycle

end Sys2Proof
end

