-- ==== Sys2Proof/Machine/Float.lean ====
section
/-! DEFINITION. IEEE 754 binary32 arithmetic on bit patterns, round to nearest, ties to even, subnormals kept
(00_scope.md rule R9; 43_lqr_matvec.md rule R225 for the special values). A finite value is an integer number of units of
2^-149, so every operation is exact integer arithmetic followed by one rounding. -/

namespace Sys2Proof.Machine

/-- The sign bit. -/
def fpSign (w : Word) : Bool := w.getLsbD 31

/-- The exponent field, bits 30:23. -/
def fpExp (w : Word) : Nat := (w.extractLsb' 23 8).toNat

/-- The fraction field, bits 22:0. -/
def fpFrac (w : Word) : Nat := (w.extractLsb' 0 23).toNat

/-- A NaN: exponent all ones, fraction not zero. -/
abbrev fpIsNaN (w : Word) : Prop := fpExp w = 255 ∧ fpFrac w ≠ 0

/-- An infinity: exponent all ones, fraction zero. -/
abbrev fpIsInf (w : Word) : Prop := fpExp w = 255 ∧ fpFrac w = 0

/-- A finite value. -/
abbrev fpIsFinite (w : Word) : Prop := fpExp w ≠ 255

/-- A quiet NaN: a NaN whose top fraction bit is set. -/
abbrev fpIsQuietNaN (w : Word) : Prop := fpExp w = 255 ∧ w.getLsbD 22 = true

/-- The magnitude of a finite pattern in units of 2^-149: a subnormal is its fraction, a normal one its significand
shifted by its exponent. -/
def fpMag (w : Word) : Nat :=
  if fpExp w = 0 then fpFrac w else (2 ^ 23 + fpFrac w) * 2 ^ (fpExp w - 1)

/-- `val(w)` (R9) of a finite pattern in units of 2^-149. -/
def fpScaled (w : Word) : Int := if fpSign w then -(fpMag w : Int) else (fpMag w : Int)

/-- A zero of either sign. -/
abbrev fpIsZero (w : Word) : Prop := fpExp w = 0 ∧ fpFrac w = 0

/-- One unit of the real line in the scale of `fpMag`. -/
def fpOne : Nat := 2 ^ 149

/-- The integer nearest to num/den, ties to even. -/
def roundNearestEven (num den : Nat) : Nat :=
  if den < 2 * (num % den) ∨ (2 * (num % den) = den ∧ (num / den) % 2 = 1) then num / den + 1 else num / den

/-- How many bits of a magnitude (in units of 2^-149) lie below the 24-bit significand. -/
def fpShift (units : Nat) : Nat := if units < 2 ^ 24 then 0 else Nat.log2 units - 23

/-- The pattern bits [30:0] of the magnitude num/den (in units of 2^-149), rounded to nearest, ties to even: the
exponent and significand fields run on into each other, so a carry out of the significand is the next exponent, and from
2^128 on the result is the infinity. -/
def roundMag (num den : Nat) : Nat :=
  min (fpShift (num / den) * 2 ^ 23 + roundNearestEven num (den * 2 ^ fpShift (num / den))) 0x7F800000

/-- A pattern from its sign and its bits [30:0]. -/
def fpPattern (neg : Bool) (bits : Nat) : Word := BitVec.ofBool neg ++ BitVec.ofNat 31 bits

/-- The infinity of the given sign. -/
def fpInf (neg : Bool) : Word := fpPattern neg 0x7F800000

/-- The pattern with its sign bit flipped. -/
def fpNeg (w : Word) : Word := w ^^^ 0x80000000

/-- `mul32(a, b)` (R9, R225); `nan` is the pattern it gives where the result is a NaN. -/
def mul32 (nan a b : Word) : Word :=
  if fpIsNaN a ∨ fpIsNaN b then nan
  else if fpIsInf a ∨ fpIsInf b then
    if fpIsZero a ∨ fpIsZero b then nan else fpInf (fpSign a ^^ fpSign b)
  else fpPattern (fpSign a ^^ fpSign b) (roundMag (fpMag a * fpMag b) fpOne)

/-- `add32(a, b)` (R9, R225). An exact zero sum is -0.0 only for -0.0 + -0.0. -/
def add32 (nan a b : Word) : Word :=
  if fpIsNaN a ∨ fpIsNaN b then nan
  else if fpIsInf a then (if fpIsInf b ∧ fpSign a ≠ fpSign b then nan else a)
  else if fpIsInf b then b
  else if fpScaled a + fpScaled b = 0 then fpPattern (fpSign a && fpSign b) 0
  else fpPattern (decide (fpScaled a + fpScaled b < 0)) (roundMag (fpScaled a + fpScaled b).natAbs 1)

/-- `sub32(a, b)` (R9): a + (-b), since negation is exact (R221). -/
def sub32 (nan a b : Word) : Word := add32 nan a (fpNeg b)

/-- `div32(a, b)` (R9). -/
def div32 (nan a b : Word) : Word :=
  if fpIsNaN a ∨ fpIsNaN b then nan
  else if fpIsInf a then (if fpIsInf b then nan else fpInf (fpSign a ^^ fpSign b))
  else if fpIsInf b then fpPattern (fpSign a ^^ fpSign b) 0
  else if fpIsZero b then (if fpIsZero a then nan else fpInf (fpSign a ^^ fpSign b))
  else fpPattern (fpSign a ^^ fpSign b) (roundMag (fpMag a * fpOne) (fpMag b))

/-- `f32(i)` (R9) of an integer. -/
def f32OfInt (i : Int) : Word := fpPattern (decide (i < 0)) (roundMag (i.natAbs * fpOne) 1)

/-- `trunc(val(w))` (R8) of a finite pattern: toward zero. -/
def fpTrunc (w : Word) : Int :=
  if fpSign w then -((fpMag w / fpOne : Nat) : Int) else ((fpMag w / fpOne : Nat) : Int)

/-- `sat32(t)` (R8). -/
def sat32 (t : Int) : Int := min (max t (-(2 ^ 31))) (2 ^ 31 - 1)

/-- The default quiet NaN, for the operations whose result is never a NaN (compress and expand, R150 and R155). -/
def fpDefaultNaN : Word := 0x7FC00000

/-- The n-th drawn NaN result (NAN_RESULT, R6, R225): a quiet NaN of free sign and payload. -/
def drawnNaN (n : Nat) : Word :=
  BitVec.ofBool ((Config.nanDraw n).getLsbD 22) ++ (0x1FF#9 ++ (Config.nanDraw n).setWidth 22)

end Sys2Proof.Machine
end

