-- ==== Sys2Proof/Machine/State.lean ====
section
/-! DEFINITION. The architectural state of the block (10_state.md), its outputs, the pending steps of its agents, and the
state after reset (70_reset_and_hazards.md rules R290 and R291). -/

namespace Sys2Proof.Machine

/-- The outcome codes of RESULT (R260): no other value is ever written to it. -/
inductive ResultCode where
  | ok
  | oversize
  | invalid
  | badIndex
  | illegal
  | sfInactive
  | sent
  | missed
  | forcedStop
  deriving DecidableEq, Repr

/-- The outcome codes of LHRES (R261). -/
inductive LhCode where
  | none
  | applied
  | invalidResync
  | stale
  deriving DecidableEq, Repr

/-- The sticky event bits STATUS[6:0] (R24), in the order of their bit numbers. -/
inductive StickyBit where
  | cmpRange
  | oversize
  | invalid
  | badIndex
  | illegal
  | fstop
  | stale
  deriving DecidableEq, Repr

/-- An outbound event towards the transport (R196). -/
inductive OutEvent where
  /-- LinkStart(baud, size) (R197) -/
  | linkStart (baud size : Nat)
  /-- LinkSend(size, bytes) (R195) -/
  | linkSend (size : Nat) (bytes : List Byte)
  /-- LinkResync(size) (R198) -/
  | linkResync (size : Nat)
  deriving DecidableEq, Repr

/-- The width of a host bus access (R62): 8, 16 or 32 bits. -/
inductive Width where
  | byte
  | half
  | word
  deriving DecidableEq, Repr

/-- The block's answer to the latest host bus access (R62, R63, R64). -/
inductive BusResponse where
  /-- no access since reset -/
  | none
  /-- a read, with its data -/
  | data (v : Word)
  /-- a write, accepted (also one that the register ignores) -/
  | done
  /-- an error response: wrong width or alignment -/
  | error
  deriving DecidableEq, Repr

/-- One pending atomic step of an agent (R72, R73), or the reset input of the platform (R292). -/
inductive Input where
  /-- HOST: a bus read -/
  | busRead (width : Width) (off : Offset)
  /-- HOST: a bus write, with the command it carries if it goes to CMD -/
  | busWrite (width : Width) (off : Offset) (v : Word)
  /-- XPORT: RxByte(k, b) (R193) -/
  | rxByte (k : Nat) (b : Byte)
  /-- XPORT: RxNotify (R194) -/
  | rxNotify
  /-- LH: the link-handler step (R190) -/
  | linkHandler
  /-- the platform's reset input (R292) -/
  | reset
  deriving DecidableEq, Repr

/-- The reasons a step could stop with a fault: there are none. Nobody raises a fault, because the block has no trap and
every error is a result code and a status bit (R200, R263), and a refused bus access is an error response (R62). Safe: no
run stops where the spec gives an effect. -/
inductive Fault where
  deriving DecidableEq, Repr

/-- The reasons a step can be refused. -/
inductive Refusal where
  /-- Raised by `exec` for a command that has no meaning yet; no arm raises it now. Safe: the machine stops where the
  hardware goes on. -/
  | notModelled (mnemonic : String)
  deriving DecidableEq, Repr

/-- The state: R20's tuple, then the block's outputs, then what the model adds to be one deterministic machine. -/
structure State where
  /-- CONFIG (R22): fixed by SF_VARIANT; the word is computed from it -/
  variant : SfVariant
  /-- MODE[0] = LQR6 (R23): false is the 9-state law; MODE[31:1] read 0 -/
  lqr6 : Bool
  /-- STATUS[6:0], the sticky bits (R24) -/
  sticky : BitVec 7
  /-- RESULT (R25) -/
  result : ResultCode
  /-- LHRES (R26) -/
  lhres : LhCode
  /-- READY, mirrored in STATUS[16] (R27) -/
  ready : Bool
  /-- NOTIFY, mirrored in STATUS[17] (R28) -/
  notify : Bool
  /-- MISSED (R29) -/
  missed : Word
  /-- RATE (R30) -/
  rate : Word
  /-- ITERS (R31) -/
  iters : Half
  /-- D[0..15] (R32) -/
  d : Vector Word 16
  /-- ERR[0..8] (R33) -/
  err : Vector Word 9
  /-- FF[0..3] (R34) -/
  ff : Vector Word 4
  /-- U[0..3] (R35) -/
  u : Vector Word 4
  /-- USF[0..3] (R36) -/
  usf : Vector Word 4
  /-- SV[0..8] (R37) -/
  sv : Vector Word 9
  /-- K9[0..3][0..8] (R38) -/
  k9 : Vector (Vector Word 9) 4
  /-- K6[0..3][0..5] (R38) -/
  k6 : Vector (Vector Word 6) 4
  /-- PAYBUF[0..PAYLOAD_LEN-1] (R40) -/
  paybuf : List Byte
  /-- TXBUF[0..PKT_LEN-1] (R41) -/
  txbuf : List Byte
  /-- RXBUF[0..PKT_LEN-1] (R42) -/
  rxbuf : List Byte
  /-- RESPBUF[0..PAYLOAD_LEN-1] (R43) -/
  respbuf : List Byte
  /-- output: the outbound events so far, oldest first (R196) -/
  events : List OutEvent
  /-- output: the answer to the latest host bus access (R62 to R64) -/
  response : BusResponse
  /-- the model's own: the pending steps of HOST, XPORT, LH and the platform, next first (R74) -/
  inputs : List Input
  /-- the model's own: how many NaN draws have been taken (NAN_RESULT, R6) -/
  draws : Nat
  deriving DecidableEq, Repr

/-- The events that leaving reset emits (R291, R197): LinkStart(BAUD, PKT_LEN), nothing in DISABLED. -/
def startEvents (v : SfVariant) : List OutEvent :=
  if v = .disabled then [] else [.linkStart Config.baud v.pktLen]

/-- The state of a block of the given variant when it leaves reset (R290, R291). -/
def State.powerOn (v : SfVariant) : State where
  variant := v
  lqr6 := false
  sticky := 0
  result := .ok
  lhres := .none
  ready := true
  notify := false
  missed := 0
  rate := 0
  iters := 0
  d := Vector.replicate 16 0
  err := Vector.replicate 9 0
  ff := Vector.replicate 4 0
  u := Vector.replicate 4 0
  usf := Vector.replicate 4 0
  sv := Vector.replicate 9 0
  k9 := Config.k9Init
  k6 := Config.k6Init
  paybuf := List.replicate v.payloadLen 0
  txbuf := List.replicate v.pktLen 0
  rxbuf := List.replicate v.pktLen 0
  respbuf := List.replicate v.payloadLen 0
  events := startEvents v
  response := .none
  inputs := []
  draws := 0

/-- The machine right after reset, of the variant the parameter SF_VARIANT fixes (R6, R290). -/
def State.reset : State := State.powerOn Config.sfVariant

end Sys2Proof.Machine
end

