-- ==== Sys2Proof/Machine/Flags.lean ====
section
/-! DEFINITION. The STATUS register (10_state.md rule R24): its sticky bits, its mirrors and write-one-to-clear. -/

namespace Sys2Proof.Machine

/-- The bit number of a sticky bit in STATUS (R24). -/
def stickyIndex : StickyBit → Nat
  | .cmpRange => 0
  | .oversize => 1
  | .invalid => 2
  | .badIndex => 3
  | .illegal => 4
  | .fstop => 5
  | .stale => 6

/-- STATUS[6:0] with the one bit set. -/
def stickyMask (b : StickyBit) : BitVec 7 := 1#7 <<< stickyIndex b

/-- Sets a sticky bit (R264: a bit already set stays set). -/
def raiseBit (b : StickyBit) (s : State) : State :=
  { s with sticky := s.sticky ||| stickyMask b }

/-- Sets CMP_RANGE when a compress was out of range (R151). -/
def noteRange (outOfRange : Bool) (s : State) : State :=
  if outOfRange then raiseBit .cmpRange s else s

/-- The STATUS word (R24): the sticky bits, READY in bit 16, NOTIFY in bit 17, the reserved bits 0. -/
def statusWord (s : State) : Word :=
  s.sticky.setWidth 32 ||| ((BitVec.ofBool s.ready).setWidth 32 <<< 16) |||
    ((BitVec.ofBool s.notify).setWidth 32 <<< 17)

/-- A bus write to STATUS (R24): clears each of bits [6:0] where the written value has a 1. -/
def clearStatus (v : Word) (s : State) : State :=
  { s with sticky := s.sticky &&& ~~~(v.setWidth 7) }

end Sys2Proof.Machine
end

