-- ==== Sys2Proof/Machine/Ops.lean ====
section
/-! DEFINITION. The shared operations over the state: the outcome primitives of 00_scope.md rule R12, register reads and
writes, and the byte buffers of 20_memory.md rule R65. -/

namespace Sys2Proof.Machine

/-- The numbers of the RESULT codes (R260). -/
def resultByte : ResultCode → Byte
  | .ok => 0x00
  | .oversize => 0x01
  | .invalid => 0x02
  | .badIndex => 0x03
  | .illegal => 0x04
  | .sfInactive => 0x05
  | .sent => 0x20
  | .missed => 0x21
  | .forcedStop => 0x22

/-- The numbers of the LHRES codes (R261). -/
def lhByte : LhCode → Byte
  | .none => 0x00
  | .applied => 0x01
  | .invalidResync => 0x02
  | .stale => 0x03

/-- `finish(code)` (R12): ends a command, writing RESULT. -/
def finish (c : ResultCode) (s : State) : State := { s with result := c }

/-- `fail(code, bit)` (R12, R263): the block's one form of error entry. It ends a command with no effect but RESULT and
one STATUS bit: no state is saved, no mode changes and no vector is taken, and there is no return (R264). -/
def fail (c : ResultCode) (b : StickyBit) (s : State) : State := finish c (raiseBit b s)

/-- `emit E` (R12): appends an event to the outbound sequence. -/
def emit (e : OutEvent) (s : State) : State := { s with events := s.events ++ [e] }

/-- A read of D[i] (R10). -/
def readD (s : State) (i : DReg) : Word := s.d[i]

/-- A write of D[i] (R10, R32): no register is hardwired. -/
def writeD (i : DReg) (v : Word) (s : State) : State := { s with d := s.d.set i v i.isLt }

/-- Byte k of a buffer; an index at or beyond its length reads 0x00 (R65). -/
def byteAt (buf : List Byte) (k : Nat) : Byte := buf.getD k 0

/-- A write of byte k; an index at or beyond the buffer's length is ignored (R65). -/
def setByte (buf : List Byte) (k : Nat) (b : Byte) : List Byte := buf.set k b

/-- Every byte of a buffer to 0x00 (R128, R133). -/
def clearBytes (buf : List Byte) : List Byte := buf.map (fun _ => 0)

/-- The bus word w of a buffer (R65): its bytes 4w to 4w+3, the lowest in bits [7:0]. -/
def bufferWord (buf : List Byte) (w : Nat) : Word :=
  byteAt buf (4 * w + 3) ++ byteAt buf (4 * w + 2) ++ byteAt buf (4 * w + 1) ++ byteAt buf (4 * w)

/-- A bus write of word w of a buffer (R65). -/
def setBufferWord (buf : List Byte) (w : Nat) (v : Word) : List Byte :=
  setByte (setByte (setByte (setByte buf (4 * w) (v.extractLsb' 0 8)) (4 * w + 1) (v.extractLsb' 8 8))
    (4 * w + 2) (v.extractLsb' 16 8)) (4 * w + 3) (v.extractLsb' 24 8)

/-- The maximum payload of the configured variant (R124). -/
def payloadLen (s : State) : Nat := s.variant.payloadLen

/-- The packet length of the configured variant (R120). -/
def pktLen (s : State) : Nat := s.variant.pktLen

end Sys2Proof.Machine
end

