-- ==== Sys2Proof/Machine/Operands.lean ====
section
/-! DEFINITION. The operand forms: payload fields (20_memory.md rule R70), the payload layouts (40_codec.md rule R122),
payload offsets (41_compressor.md rule R158) and gain entries (43_lqr_matvec.md rules R226 and R227). -/

namespace Sys2Proof.Machine

/-- `le16(B, off)` (R10, R70): the low byte at `off`, the high byte at `off + 1`. -/
def le16 (buf : List Byte) (off : Nat) : Half := byteAt buf (off + 1) ++ byteAt buf off

/-- `put_le16(B, off, h)` (R10, R70). -/
def putLe16 (buf : List Byte) (off : Nat) (h : Half) : List Byte :=
  setByte (setByte buf off (h.extractLsb' 0 8)) (off + 1) (h.extractLsb' 8 8)

/-- The offset check of CMPST and LDEXP (R158): even and `OFF + 2 <= PAYLOAD_LEN`. -/
abbrev offsetOk (s : State) (off : Nat) : Prop := off % 2 = 0 ∧ off + 2 ≤ payloadLen s

/-- The request fields of the variant's layout, in list order: offset and source word (R122, R182). -/
def requestFields (s : State) : List (Nat × Word) :=
  match s.variant with
  | .disabled => []
  | .pos =>
      [(0, s.sv[0]), (2, s.sv[1]), (4, s.sv[2]), (6, s.sv[3]), (8, s.sv[4]), (10, s.sv[5]),
       (12, s.u[0]), (14, s.u[1]), (16, s.u[2]), (18, s.u[3])]
  | .att => [(0, s.sv[6]), (2, s.sv[7]), (4, s.u[0]), (6, s.u[1]), (8, s.u[2]), (10, s.u[3])]
  | .attIt => [(0, s.sv[6]), (2, s.sv[7]), (4, s.u[0]), (6, s.u[1]), (8, s.u[2]), (10, s.u[3])]

/-- The offset of the first control field of a response (R122, R192): the four fields follow each other. -/
def controlBase : SfVariant → Nat
  | .disabled => 0
  | .pos => 12
  | .att => 4
  | .attIt => 4

/-- The offset of the iters field in ATT_IT (R122). -/
def itersOffset : Nat := 12

/-- Writes one gain entry (R226); a column outside the bank is written nowhere (the command has checked it, R227). -/
def writeGain (bank : Bank) (i : Fin 4) (j : Nat) (v : Word) (s : State) : State :=
  match bank with
  | .k9 => { s with k9 := s.k9.set i (s.k9[i].setIfInBounds j v) i.isLt }
  | .k6 => { s with k6 := s.k6.set i (s.k6[i].setIfInBounds j v) i.isLt }

end Sys2Proof.Machine
end

