-- ==== Sys2Proof/Machine/Lqr.lean ====
section
/-! DEFINITION. LQR gain application (43_lqr_matvec.md): MATVEC and SETK. -/

namespace Sys2Proof.Machine

/-- The rounded sum of products of a gain row with the error vector (R220, R221): from +0.0 in increasing column order,
each product and each sum rounded. The shorter list ends it, so a six-column row reads ERR[0..5]. -/
def dotProduct (nan : Word) (row err : List Word) : Word :=
  (row.zip err).foldl (fun acc p => add32 nan acc (mul32 nan p.1 p.2)) 0x00000000

/-- Row i of the active gain matrix (R220). -/
def activeRow (s : State) (i : Fin 4) : List Word :=
  if s.lqr6 then s.k6[i].toList else s.k9[i].toList

/-- Component i of FF - K*ERR (R220). A NaN is the draw of this component, fresh for each (R225). The NaNs inside the
sum have no pattern of their own, because a NaN operand gives a NaN whatever its pattern. -/
def controlRow (s : State) (i : Fin 4) : Word :=
  let nan := drawnNaN (s.draws + i.val)
  sub32 nan s.ff[i] (dotProduct nan (activeRow s i) s.err.toList)

/-- MATVEC (R220): writes U only, and takes one draw a component. -/
def execMatvec (s : State) : Host.Outcome State Fault Refusal :=
  .next (finish .ok
    { s with u := #v[controlRow s 0, controlRow s 1, controlRow s 2, controlRow s 3], draws := s.draws + 4 })

/-- SETK (R226, R227): the raw bits of D[RS] into one gain entry. -/
def execSetk (bank : Bank) (i : Fin 4) (j : Nat) (rs : DReg) (s : State) : Host.Outcome State Fault Refusal :=
  .next (if j < bank.cols then finish .ok (writeGain bank i j (readD s rs) s) else fail .badIndex .badIndex s)

end Sys2Proof.Machine
end

