-- ==== Sys2Proof/Machine/System.lean ====
section
/-! DEFINITION. Mode selection and no-op (44_system.md), and the effect of an illegal word (30_encoding.md rule R97). -/

namespace Sys2Proof.Machine

/-- NOP (R250). -/
def execNop (s : State) : Host.Outcome State Fault Refusal := .next (finish .ok s)

/-- SETMODE (R251). -/
def execSetmode (lqr6 : Bool) (s : State) : Host.Outcome State Fault Refusal :=
  .next (finish .ok { s with lqr6 := lqr6 })

/-- Executing an illegal word (R97): `fail(0x04, 4)`. -/
def illegalWord (s : State) : State := fail .illegal .illegal s

end Sys2Proof.Machine
end

