-- ==== Sys2Proof/Machine/Codec.lean ====
section
/-! DEFINITION. The Packet Codec (40_codec.md): the pack and unpack functions and the commands PACK, UNPACK and
CLRPAY. -/

namespace Sys2Proof.Machine

/-- A packet framed into TXBUF (R126): byte 0 is the header, bytes 1 to `size` are the payload's, the rest keep their
values. -/
def framed (size : Nat) (payload tx : List Byte) : List Byte :=
  tx.mapIdx fun k b => if k = 0 then Config.header else if k ≤ size then byteAt payload (k - 1) else b

/-- `pack(size)` (R126): none is OVERSIZE, with TXBUF untouched. -/
def pack (size : Nat) (s : State) : Option State :=
  if payloadLen s < size then none else some { s with txbuf := framed size s.paybuf s.txbuf }

/-- `unpack()` (R127 to R129): none is INVALID, with nothing changed. -/
def unpack (s : State) : Option State :=
  if byteAt s.rxbuf 0 = Config.header then
    some { s with
      respbuf := s.respbuf.mapIdx fun k _ => byteAt s.rxbuf (k + 1)
      rxbuf := clearBytes s.rxbuf
      rate := s.rate + 1 }
  else none

/-- Clears the payload staging buffer (R133). -/
def clearPayload (s : State) : State := { s with paybuf := clearBytes s.paybuf }

/-- PACK (R125). -/
def execPack (size : Nat) (s : State) : Host.Outcome State Fault Refusal :=
  .next (match pack size s with
    | some t => finish .ok t
    | none => fail .oversize .oversize s)

/-- UNPACK (R130). -/
def execUnpack (s : State) : Host.Outcome State Fault Refusal :=
  .next (match unpack s with
    | some t => finish .ok t
    | none => fail .invalid .invalid s)

/-- CLRPAY (R133). -/
def execClrpay (s : State) : Host.Outcome State Fault Refusal := .next (finish .ok (clearPayload s))

end Sys2Proof.Machine
end

