-- ==== Sys2Proof/Machine/Compressor.lean ====
section
/-! DEFINITION. The Fixed-Point Compressor (41_compressor.md): compress, expand, and the commands CMP, EXP, CMPST and
LDEXP. -/

namespace Sys2Proof.Machine

/-- The result of a compress: the 16-bit value and whether STATUS.CMP_RANGE is set (R150, R151). -/
structure Compressed where
  value : Half
  outOfRange : Bool
  deriving DecidableEq, Repr

/-- `sat32(t)` of R150 for an infinite product. -/
def satInf (neg : Bool) : Int := if neg then -(2 ^ 31) else 2 ^ 31 - 1

/-- `sat32(t)` of R150 for a non-NaN input: the product with 1000, truncated toward zero, saturated to s32. -/
def scaledTrunc (p : CmpProduct) (w : Word) : Int :=
  match p with
  | .fp32Rne =>
      let prod := mul32 fpDefaultNaN w Config.scale
      if fpIsInf prod then satInf (fpSign prod) else sat32 (fpTrunc prod)
  | .exact =>
      if fpIsInf w then satInf (fpSign w)
      else
        let t : Nat := fpMag w * Config.scaleInt / fpOne
        sat32 (if fpSign w then -(t : Int) else (t : Int))

/-- The compress function under a given product (R150). Saturation keeps an out-of-range t out of range, so the range
test reads the saturated value. -/
def compressWith (p : CmpProduct) (w : Word) : Compressed :=
  if fpIsNaN w then ⟨0, true⟩
  else ⟨BitVec.ofInt 16 (scaledTrunc p w), decide (scaledTrunc p w < -32768 ∨ 32767 < scaledTrunc p w)⟩

/-- The compress function (R150), with the product CMP_PRODUCT fixes. -/
def compress (w : Word) : Compressed := compressWith Config.cmpProduct w

/-- The expand function (R155): i / 1000.0, rounded to nearest even. -/
def expand (h : Half) : Word := div32 fpDefaultNaN (f32OfInt h.toInt) Config.scale

/-- CMP (R152). -/
def execCmp (rd rs : DReg) (s : State) : Host.Outcome State Fault Refusal :=
  let c := compress (readD s rs)
  .next (finish .ok (writeD rd (c.value.signExtend 32) (noteRange c.outOfRange s)))

/-- EXP (R156): the source's bits [31:16] are ignored. -/
def execExp (rd rs : DReg) (s : State) : Host.Outcome State Fault Refusal :=
  .next (finish .ok (writeD rd (expand ((readD s rs).setWidth 16)) s))

/-- Stores a compressed word in the payload staging buffer (R160). -/
def storeCompressed (off : Nat) (w : Word) (s : State) : State :=
  noteRange (compress w).outOfRange { s with paybuf := putLe16 s.paybuf off (compress w).value }

/-- CMPST (R158, R160): the offset check comes before the compress. -/
def execCmpst (off : Nat) (rs : DReg) (s : State) : Host.Outcome State Fault Refusal :=
  .next (if offsetOk s off then finish .ok (storeCompressed off (readD s rs) s) else fail .badIndex .badIndex s)

/-- LDEXP (R158, R164). -/
def execLdexp (rd : DReg) (off : Nat) (s : State) : Host.Outcome State Fault Refusal :=
  .next (if offsetOk s off then finish .ok (writeD rd (expand (le16 s.respbuf off)) s)
    else fail .badIndex .badIndex s)

end Sys2Proof.Machine
end

