-- ==== Sys2Proof/Machine/Watchdog.lean ====
section
/-! DEFINITION. The link watchdog and Safety-Filter Client (42_watchdog.md): SFCYCLE, the link-handler step and the
transport's inbound events. -/

namespace Sys2Proof.Machine

/-- `sf_active()` (R180). -/
def sfActive (s : State) : Bool :=
  match s.variant with
  | .disabled => false
  | .pos => s.lqr6
  | .att => !s.lqr6
  | .attIt => !s.lqr6

/-- Writes each field's compressed value into a payload, in list order (R182). -/
def putFields (fields : List (Nat × Word)) (buf : List Byte) : List Byte :=
  fields.foldl (fun b f => putLe16 b f.1 (compress f.2).value) buf

/-- `build_request()` (R182): PAYBUF zeroed, then the variant's fields; CMP_RANGE if any of them is out of range. -/
def buildRequest (s : State) : State :=
  noteRange ((requestFields s).any fun f => (compress f.2).outOfRange)
    { s with paybuf := putFields (requestFields s) (clearBytes s.paybuf) }

/-- The Ready path of SFCYCLE up to READY and MISSED (R181, R183). The pack of exactly PAYLOAD_LEN bytes cannot fail. -/
def sendRequest (s : State) : State :=
  let built := buildRequest s
  let packed := (pack (payloadLen built) built).getD built
  let sent := emit (.linkSend (pktLen packed) packed.txbuf) packed
  { clearPayload sent with ready := false, missed := 0 }

/-- The saturating increment of MISSED (R29, R184). -/
def countMiss (s : State) : State :=
  { s with missed := if s.missed = 0xFFFFFFFF then s.missed else s.missed + 1 }

/-- The forced stop (R185): the stop command in USF, READY re-armed, FSTOP set; MISSED keeps its value. -/
def forceStop (s : State) : State :=
  raiseBit .fstop { s with usf := Vector.replicate 4 0, ready := true }

/-- The control vector replaced by the latest safe one (R186). -/
def replaceControl (s : State) : State := { s with u := s.usf }

/-- One safety-filter cycle (R181). -/
def safetyCycle (s : State) : State :=
  if sfActive s = false then finish .sfInactive s
  else if s.ready then finish .sent (replaceControl (sendRequest s))
  else if Config.thresh < (countMiss s).missed.toNat then
    finish .forcedStop (replaceControl (forceStop (countMiss s)))
  else finish .missed (replaceControl (countMiss s))

/-- SFCYCLE (R181 to R187). -/
def execSfcycle (s : State) : Host.Outcome State Fault Refusal := .next (safetyCycle s)

/-- Control field i of a response, expanded (R192). -/
def controlField (s : State) (i : Nat) : Word := expand (le16 s.respbuf (controlBase s.variant + 2 * i))

/-- `apply_response()` (R192): USF from the control fields; in ATT_IT also ITERS. -/
def applyResponse (s : State) : State :=
  { s with
    usf := #v[controlField s 0, controlField s 1, controlField s 2, controlField s 3]
    iters := if s.variant = .attIt then le16 s.respbuf itersOffset else s.iters }

/-- What the LH step does with a good packet it has unpacked (R190, R191). -/
def acceptPacket (s : State) : State :=
  if s.ready = false ∧ sfActive s = true then
    { applyResponse s with ready := true, missed := 0, lhres := .applied }
  else { raiseBit .stale s with lhres := .stale }

/-- What the LH step does with a bad header (R190, R198). -/
def rejectPacket (s : State) : State :=
  emit (.linkResync (pktLen s)) { raiseBit .invalid s with lhres := .invalidResync }

/-- The LH step with NOTIFY cleared (R190). -/
def handlePacket (s : State) : State :=
  match unpack s with
  | some t => acceptPacket t
  | none => rejectPacket s

/-- The link-handler step (R190): enabled when NOTIFY = 1; where it is not enabled nothing happens. -/
def linkHandlerStep (s : State) : State :=
  if s.notify then handlePacket { s with notify := false } else s

/-- RxByte(k, b) (R193). -/
def receiveByte (k : Nat) (b : Byte) (s : State) : State :=
  if k < pktLen s then { s with rxbuf := setByte s.rxbuf k b } else s

/-- RxNotify (R194). -/
def receiveNotify (s : State) : State := { s with notify := true }

end Sys2Proof.Machine
end

