-- ==== Sys2Proof/Machine/Dispatch.lean ====
section
/-! DEFINITION. One arm per command (30_encoding.md rule R95). -/

namespace Sys2Proof.Machine

def exec (i : Instr) (s : State) : Host.Outcome State Fault Refusal :=
  match i with
  | .nop => Sys2Proof.Machine.execNop s
  | .cmp rd rs => Sys2Proof.Machine.execCmp rd rs s
  | .exp rd rs => Sys2Proof.Machine.execExp rd rs s
  | .cmpst off rs => Sys2Proof.Machine.execCmpst off rs s
  | .ldexp rd off => Sys2Proof.Machine.execLdexp rd off s
  | .pack size => Sys2Proof.Machine.execPack size s
  | .unpack => Sys2Proof.Machine.execUnpack s
  | .clrpay => Sys2Proof.Machine.execClrpay s
  | .matvec => Sys2Proof.Machine.execMatvec s
  | .setk bank row col rs => Sys2Proof.Machine.execSetk bank row col rs s
  | .setmode lqr6 => Sys2Proof.Machine.execSetmode lqr6 s
  | .sfcycle => Sys2Proof.Machine.execSfcycle s

end Sys2Proof.Machine
end

