-- ==== Sys2Proof/Machine/Bus.lean ====
section
/-! DEFINITION. The host's register window (20_memory.md rules R60 to R66): the register map, reads, writes, and the
command a write to CMD executes (R80). -/

namespace Sys2Proof.Machine

/-- What stands at an offset of the window (R61). -/
inductive BusReg where
  | config | mode | status | cmd | result | lhres | missed | rate | iters
  | d (i : Fin 16) | err (j : Fin 9) | ff (i : Fin 4) | u (i : Fin 4) | usf (i : Fin 4) | sv (k : Fin 9)
  | k9 (i : Fin 4) (j : Fin 9) | k6 (i : Fin 4) (j : Fin 6)
  | paybuf (w : Fin 5) | txbuf (w : Fin 6) | rxbuf (w : Fin 6) | respbuf (w : Fin 5)
  | reserved
  deriving DecidableEq, Repr

/-- The index of an offset in a row of n words from `base` on, if it lies in it. -/
def slot (base n off : Nat) : Option (Fin n) :=
  if h : base ≤ off ∧ off < base + 4 * n then some ⟨(off - base) / 4, by omega⟩ else none

/-- A register that is one word at `base`. -/
def single (base : Nat) (r : BusReg) (off : Nat) : Option BusReg := if off = base then some r else none

/-- Entry n of K9 in its row-major place (R61). -/
def gain9Reg (n : Fin 36) : BusReg := .k9 ⟨n.val / 9, by omega⟩ ⟨n.val % 9, by omega⟩

/-- Entry n of K6 in its row-major place (R61). -/
def gain6Reg (n : Fin 24) : BusReg := .k6 ⟨n.val / 6, by omega⟩ ⟨n.val % 6, by omega⟩

/-- The register map (R61); every other offset is reserved. -/
def regAt (off : Nat) : BusReg :=
  (single 0x000 .config off
    <|> single 0x004 .mode off
    <|> single 0x008 .status off
    <|> single 0x00C .cmd off
    <|> single 0x010 .result off
    <|> single 0x014 .lhres off
    <|> single 0x018 .missed off
    <|> single 0x01C .rate off
    <|> single 0x020 .iters off
    <|> (slot 0x040 16 off).map BusReg.d
    <|> (slot 0x080 9 off).map BusReg.err
    <|> (slot 0x0B0 4 off).map BusReg.ff
    <|> (slot 0x0C0 4 off).map BusReg.u
    <|> (slot 0x0D0 4 off).map BusReg.usf
    <|> (slot 0x100 9 off).map BusReg.sv
    <|> (slot 0x200 36 off).map gain9Reg
    <|> (slot 0x300 24 off).map gain6Reg
    <|> (slot 0x400 5 off).map BusReg.paybuf
    <|> (slot 0x440 6 off).map BusReg.txbuf
    <|> (slot 0x480 6 off).map BusReg.rxbuf
    <|> (slot 0x4C0 5 off).map BusReg.respbuf).getD .reserved

/-- The CONFIG word (R22). -/
def configWord (v : SfVariant) : Word :=
  BitVec.ofNat 32 (v.code + v.payloadLen * 2 ^ 8 + v.pktLen * 2 ^ 16)

/-- The MODE word (R23). -/
def modeWord (s : State) : Word := (BitVec.ofBool s.lqr6).setWidth 32

/-- The value a bus read of a register returns (R63, R65). -/
def readReg (r : BusReg) (s : State) : Word :=
  match r with
  | .config => configWord s.variant
  | .mode => modeWord s
  | .status => statusWord s
  | .cmd => 0
  | .result => (resultByte s.result).setWidth 32
  | .lhres => (lhByte s.lhres).setWidth 32
  | .missed => s.missed
  | .rate => s.rate
  | .iters => s.iters.setWidth 32
  | .d i => s.d[i]
  | .err j => s.err[j]
  | .ff i => s.ff[i]
  | .u i => s.u[i]
  | .usf i => s.usf[i]
  | .sv k => s.sv[k]
  | .k9 i j => s.k9[i][j]
  | .k6 i j => s.k6[i][j]
  | .paybuf w => bufferWord s.paybuf w
  | .txbuf w => bufferWord s.txbuf w
  | .rxbuf w => bufferWord s.rxbuf w
  | .respbuf w => bufferWord s.respbuf w
  | .reserved => 0

/-- The effect of a bus write on a register other than CMD (R64, R65): read-only registers and reserved offsets ignore
it. -/
def writeReg (r : BusReg) (v : Word) (s : State) : State :=
  match r with
  | .mode => { s with lqr6 := v.getLsbD 0 }
  | .status => clearStatus v s
  | .d i => writeD i v s
  | .err j => { s with err := s.err.set j v j.isLt }
  | .ff i => { s with ff := s.ff.set i v i.isLt }
  | .u i => { s with u := s.u.set i v i.isLt }
  | .sv k => { s with sv := s.sv.set k v k.isLt }
  | .paybuf w => { s with paybuf := setBufferWord s.paybuf w v }
  | .config | .cmd | .result | .lhres | .missed | .rate | .iters | .usf _ | .k9 _ _ | .k6 _ _
  | .txbuf _ | .rxbuf _ | .respbuf _ | .reserved => s

/-- A command word executed (R80, R97): the command it decodes to, or the effect of an illegal word. -/
def runCommand (w : Word) (s : State) : Host.Outcome State Fault Refusal :=
  match decode w with
  | .command i => exec i s
  | .illegal _ => .next (illegalWord s)

/-- The only access the block accepts (R62): 32 bits at an offset that is a multiple of 4. -/
abbrev accepted (width : Width) (off : Offset) : Prop := width = .word ∧ off.toNat % 4 = 0

/-- A host bus read (R62, R63): no side effect on the block, only the response. -/
def busRead (width : Width) (off : Offset) (s : State) : State :=
  { s with response := if accepted width off then .data (readReg (regAt off.toNat) s) else .error }

/-- A host bus write (R62, R64): a write to CMD executes the command in full. -/
def busWrite (width : Width) (off : Offset) (v : Word) (s : State) : Host.Outcome State Fault Refusal :=
  if accepted width off then
    if regAt off.toNat = .cmd then runCommand v { s with response := .done }
    else .next (writeReg (regAt off.toNat) v { s with response := .done })
  else .next { s with response := .error }

/-- The offset of CMD (R61, R90). -/
def cmdOffset : Offset := 0x00C

/-- The offset of a host byte address in the block's window (R11, R60), none outside the window. -/
def windowOffset (addr : Nat) : Option Offset :=
  if Config.base ≤ addr ∧ addr < Config.base + 0x800 then some (BitVec.ofNat 11 (addr - Config.base)) else none

/-- `MemRead(addr, size)` as a step of the block (R11); an address outside the window is no access to the block (R67). -/
def memRead (width : Width) (addr : Nat) : Option Input := (windowOffset addr).map fun off => .busRead width off

/-- `MemWrite(addr, size, v)` as a step of the block (R11). -/
def memWrite (width : Width) (addr : Nat) (v : Word) : Option Input :=
  (windowOffset addr).map fun off => .busWrite width off v

end Sys2Proof.Machine
end

