-- ==== Sys2Proof/Machine/Agents.lean ====
section
/-! DEFINITION. The atomic steps of the agents HOST, XPORT and LH (20_memory.md rules R72 to R75), the reset input
(70_reset_and_hazards.md rule R292), and what the block does when no agent has a step pending. -/

namespace Sys2Proof.Machine

/-- The reset input (R290 to R292): every piece of the block's state to its reset value. The variant is a parameter and
stays. The pending steps of the other agents and the count of draws are not the block's and stay too. -/
def resetInput (s : State) : State := { State.powerOn s.variant with inputs := s.inputs, draws := s.draws }

/-- One atomic step of an agent (R73). -/
def runInput (e : Input) (s : State) : Host.Outcome State Fault Refusal :=
  match e with
  | .busRead width off => .next (busRead width off s)
  | .busWrite width off v => busWrite width off v s
  | .rxByte k b => .next (receiveByte k b s)
  | .rxNotify => .next (receiveNotify s)
  | .linkHandler => .next (linkHandlerStep s)
  | .reset => .next (resetInput s)

/-- No step of HOST, XPORT or the platform is pending (R75, R276): an enabled LH step is taken; otherwise the block waits,
holding its state. -/
def idleStep (s : State) : Host.Outcome State Fault Refusal := .next (linkHandlerStep s)

/-- The next step in the order of the pending ones (R74). -/
def nextStep (s : State) : Host.Outcome State Fault Refusal :=
  match s.inputs with
  | [] => idleStep s
  | e :: rest => runInput e { s with inputs := rest }

/-- The pending bus write that gives a command word to the block (R90). -/
def commandInput (w : Word) : Input := .busWrite .word cmdOffset w

end Sys2Proof.Machine
end

