-- ==== Sys2Proof/Machine/Step.lean ====
section
/-! DEFINITION. One step of the machine (20_memory.md rules R73 and R74), and how the host places a command before it. -/

namespace Sys2Proof.Machine

/-- One step: the next pending atomic step, or the idle step. -/
def step (s : State) : Host.Outcome State Fault Refusal := nextStep s

/-- The state with the command word of an opcode-table row pending as the next step: the block fetches nothing (R78), so
the word is the value of the next CMD write. A row of fewer than 32 bits has its upper bits zero (R90). -/
def State.withFetchWord (s : State) (nbits w : Nat) : State :=
  { s with inputs := commandInput (BitVec.ofNat 32 (w % 2 ^ nbits)) :: s.inputs }

end Sys2Proof.Machine
end

