-- ==== Sys2Proof/Safety.lean ====
section
/-! DEFINITION. What a sound state of the block is, what a correct rounding is, and the notions the claims use. -/

namespace Sys2Proof.Machine

/-- The byte buffers have the lengths of the variant (R40 to R44). -/
structure BuffersFit (s : State) : Prop where
  paybuf : s.paybuf.length = s.variant.payloadLen
  txbuf : s.txbuf.length = s.variant.pktLen
  rxbuf : s.rxbuf.length = s.variant.pktLen
  respbuf : s.respbuf.length = s.variant.payloadLen

/-- The watchdog is in one of its states (R29, R188): MISSED never exceeds THRESH + 1, and while a request is outstanding
it never exceeds THRESH. -/
structure WatchdogSound (s : State) : Prop where
  bound : s.missed.toNat ≤ Config.thresh + 1
  awaiting : s.ready = false → s.missed.toNat ≤ Config.thresh

/-- An outbound event has the size and the header the variant gives it (R124, R195, R197, R198). -/
def EventSound (v : SfVariant) : OutEvent → Prop
  | .linkStart baud size => v ≠ .disabled ∧ baud = Config.baud ∧ size = v.pktLen
  | .linkSend size bytes =>
      v ≠ .disabled ∧ size = v.pktLen ∧ bytes.length = size ∧ byteAt bytes 0 = Config.header
  | .linkResync size => size = v.pktLen

/-- The outbound sequence begins with the events of leaving reset (R196, R197) and every event in it is sound. -/
structure OutboundSound (s : State) : Prop where
  started : startEvents s.variant <+: s.events
  sound : ∀ e ∈ s.events, EventSound s.variant e

/-- The invariant of the block. -/
structure Sound (s : State) : Prop where
  buffers : BuffersFit s
  watchdog : WatchdogSound s
  outbound : OutboundSound s
  /-- R31: only ATT_IT ever writes ITERS -/
  iters : s.variant ≠ .attIt → s.iters = 0
  /-- R180: a DISABLED block never leaves Ready and never writes USF -/
  disabled : s.variant = .disabled → s.ready = true ∧ s.missed = 0 ∧ s.usf = Vector.replicate 4 0

/-- A sequence of commands executed one after the other (R74, R80), stopping at the first that does not answer a next
state. -/
def execAll : List Instr → State → Host.Outcome State Fault Refusal
  | [], s => .next s
  | i :: rest, s =>
      match exec i s with
      | .next t => execAll rest t
      | .fault r => .fault r
      | .refused r => .refused r

/-- The next pending step is a write of a word to CMD that decodes to the command. -/
def NextCommand (s : State) (i : Instr) : Prop :=
  ∃ w rest, s.inputs = commandInput w :: rest ∧ decode w = .command i

/-- The next pending step is the reset input. -/
def NextReset (s : State) : Prop := ∃ rest, s.inputs = .reset :: rest

/-- The step is a link-handler step that applies a response (R190, R191): it is enabled, the header is good, a request is
outstanding and the filter is active. -/
def AppliesResponse (s : State) : Prop :=
  (s.inputs = [] ∨ ∃ rest, s.inputs = .linkHandler :: rest) ∧ s.notify = true ∧
    byteAt s.rxbuf 0 = Config.header ∧ s.ready = false ∧ sfActive s = true

/-- The word is the binary32 that IEEE 754 round-to-nearest-even gives for the magnitude num/den, in units of 2^-149, and
the sign (R9): an infinity from half a unit in the last place above the largest finite value on, and below that the
nearest finite value, the one with the even significand where two are equally near. -/
structure RoundsTo (neg : Bool) (num den : Nat) (w : Word) : Prop where
  sign : fpSign w = neg
  overflow : (2 ^ 25 - 1) * 2 ^ 252 * den ≤ num → fpIsInf w
  finite : num < (2 ^ 25 - 1) * 2 ^ 252 * den → fpIsFinite w
  nearest : fpIsFinite w → ∀ v : Word, fpIsFinite v →
    ((num : Int) - den * fpMag w).natAbs ≤ ((num : Int) - den * fpMag v).natAbs
  even : fpIsFinite w → ∀ v : Word, fpIsFinite v → fpMag v ≠ fpMag w →
    ((num : Int) - den * fpMag w).natAbs = ((num : Int) - den * fpMag v).natAbs → fpFrac w % 2 = 0

end Sys2Proof.Machine
end

