-- ==== Sys2Proof/Certificates/Slice0/Obligations.lean ====
section
/-! DEFINITION. The statements about the block, from the numbered rules of its spec. -/

open Sys2Proof Sys2Proof.Machine

/-! ## Encoding and decoding -/

/-- R99, R95, R96: decoding the assembler's word of a well-formed command gives the command back, with every operand. -/
def Obligations.DecodeOfEncode : Prop :=
  ∀ i : Instr, i.WellFormed → decode (encode i) = .command i

/-- R91, R92, R95, R99: a word that decodes to a command is the assembler's word of it, and the command is well formed;
so no bit of a legal word is ignored. -/
def Obligations.EncodeOfDecode : Prop :=
  ∀ (w : Word) (i : Instr), decode w = .command i → i.WellFormed ∧ encode i = w

/-- R96: a word decodes to the command of the row it matches, at most one row matches, and a word that matches none is
illegal. -/
def Obligations.WordDecodesToItsOneRow : Prop :=
  (∀ (w : Word) (o : Opcode), rowMatches o w →
    decode w = .command (operandsOf o w) ∧ ∀ o' : Opcode, rowMatches o' w → o' = o) ∧
  ∀ w : Word, (∀ o : Opcode, ¬ rowMatches o w) → ∃ why, decode w = .illegal why

/-- R95, R99: words written out from the encodings decode to the commands they stand for. A sanity statement. -/
def Obligations.SpecWordsDecode : Prop :=
  decode 0x00000000 = .command .nop ∧
  decode 0x01100000 = .command (.cmp 1 0) ∧
  decode 0x02320000 = .command (.exp 3 2) ∧
  decode 0x0304000C = .command (.cmpst 12 4) ∧
  decode 0x04500004 = .command (.ldexp 5 4) ∧
  decode 0x05000010 = .command (.pack 16) ∧
  decode 0x06000000 = .command .unpack ∧
  decode 0x07000000 = .command .clrpay ∧
  decode 0x10000000 = .command .matvec ∧
  decode 0x11071002 = .command (.setk .k6 0 2 7) ∧
  decode 0x12000001 = .command (.setmode true) ∧
  decode 0x20000000 = .command .sfcycle

/-- R97: executing a word that matches no row writes RESULT 0x04 and STATUS.ILLEGAL (bit 4) and changes nothing else. -/
def Obligations.IllegalWordFails : Prop :=
  ∀ (s : State) (w : Word), (∀ o : Opcode, ¬ rowMatches o w) →
    runCommand w s = .next { s with result := .illegal, sticky := s.sticky ||| 0x10#7 } ∧
      resultByte .illegal = 0x04

/-! ## The step -/

/-- R73, R80: when the pending step is a write of a word to CMD that decodes to a well-formed command, the step is that
command, executed in full on the state with the write taken off the pending steps and acknowledged. -/
def Obligations.StepRunsDecodedCommand : Prop :=
  ∀ (s : State) (i : Instr) (w : Word) (rest : List Input),
    s.inputs = .busWrite .word 0x00C w :: rest → decode w = .command i →
      i.WellFormed ∧ step s = exec i { s with inputs := rest, response := .done }

/-- R75, R190, R292: with no step pending, an enabled LH step is taken, and otherwise the block holds its state. That the
idle block takes the LH step at once is the model's choice (assumption 4). -/
def Obligations.IdleBlockTakesLinkHandlerOrWaits : Prop :=
  ∀ s : State, s.inputs = [] →
    (s.notify = true → step s = step { s with inputs := [.linkHandler] }) ∧ (s.notify = false → step s = .next s)

/-- R200, R263: nothing stops the block; every step of every state answers a next state. -/
def Obligations.EveryStepAnswersANextState : Prop :=
  ∀ s : State, ∃ t, step s = .next t

/-! ## System commands -/

/-- R250: NOP writes RESULT 0x00 and nothing else. -/
def Obligations.NopCompletes : Prop :=
  ∀ s : State, exec .nop s = .next { s with result := .ok } ∧ resultByte .ok = 0x00

/-- R251: SETMODE writes MODE.LQR6 and RESULT and nothing else; MODE then reads M. -/
def Obligations.SetmodeSelectsTheLaw : Prop :=
  ∀ (s : State) (m : Bool), ∃ t, exec (.setmode m) s = .next t ∧ t = { s with lqr6 := m, result := .ok } ∧
    readReg .mode t = if m then 1 else 0

/-! ## Fixed-Point Compressor -/

/-- R150: the compress function, clause by clause: a NaN; a finite product, truncated toward zero, saturated to s32 and cut
to 16 bits; an infinite product of either sign. -/
def Obligations.CompressFollowsItsRule : Prop :=
  ∀ w : Word,
    (fpIsNaN w → compress w = ⟨0, true⟩) ∧
    (¬ fpIsNaN w → ¬ fpIsNaN (mul32 fpDefaultNaN w 0x447A0000) ∧
      (fpIsInf (mul32 fpDefaultNaN w 0x447A0000) →
        compress w = if fpSign (mul32 fpDefaultNaN w 0x447A0000) then ⟨0x0000, true⟩ else ⟨0xFFFF, true⟩) ∧
      (¬ fpIsInf (mul32 fpDefaultNaN w 0x447A0000) →
        compress w =
          ⟨BitVec.ofInt 16 (sat32 (fpTrunc (mul32 fpDefaultNaN w 0x447A0000))),
            decide (fpTrunc (mul32 fpDefaultNaN w 0x447A0000) < -32768 ∨
              32767 < fpTrunc (mul32 fpDefaultNaN w 0x447A0000))⟩))

/-- R153: the inputs in range are exactly the finite ones from 0xC2031374 up to 0x4203126E, both ends included; on them
compress is monotone and odd; and whatever its input it sets no RESULT but OK. -/
def Obligations.CompressProperties : Prop :=
  (∀ w : Word, (compress w).outOfRange = false ↔
    fpIsFinite w ∧ fpScaled 0xC2031374 ≤ fpScaled w ∧ fpScaled w ≤ fpScaled 0x4203126E) ∧
  (∀ x y : Word, (compress x).outOfRange = false → (compress y).outOfRange = false → fpScaled x ≤ fpScaled y →
    (compress x).value.toInt ≤ (compress y).value.toInt) ∧
  (∀ x : Word, (compress x).outOfRange = false → (compress (x ^^^ 0x80000000)).value = -(compress x).value) ∧
  ∀ (s : State) (rd rs : DReg), ∃ t, exec (.cmp rd rs) s = .next t ∧ t.result = .ok

/-- R152: CMP writes the sign-extended compress of D[RS] to D[RD], CMP_RANGE (bit 0) when the input is out of range,
RESULT, and nothing else; RS is read before RD is written. -/
def Obligations.CmpCompressesARegister : Prop :=
  ∀ (s : State) (rd rs : DReg), ∃ t, exec (.cmp rd rs) s = .next t ∧
    t = { s with
      d := t.d
      sticky := if (compress s.d[rs]).outOfRange then s.sticky ||| 0x01#7 else s.sticky
      result := .ok } ∧
    ∀ k : DReg, t.d[k] = if k = rd then (compress s.d[rs]).value.signExtend 32 else s.d[k]

/-- R155, R156: expand gives a binary32 nearest to i / 1000: no finite binary32 is nearer (the differences are in units of
2^-149 / 1000). It is +0.0 for 0, and otherwise never NaN, infinite, subnormal or zero, with the sign of its input. -/
def Obligations.ExpandIsNearestQuotient : Prop :=
  (∀ (h : Half) (w : Word), fpIsFinite w →
    (1000 * fpScaled (expand h) - h.toInt * 2 ^ 149).natAbs ≤ (1000 * fpScaled w - h.toInt * 2 ^ 149).natAbs) ∧
  expand 0 = 0x00000000 ∧
  ∀ h : Half, h ≠ 0 →
    fpIsFinite (expand h) ∧ fpExp (expand h) ≠ 0 ∧ fpSign (expand h) = decide (h.toInt < 0)

/-- R154: for every binary32 of magnitude below 32, compressing and expanding it gives a value at most 0.001 away (the
difference is in units of 2^-149). -/
def Obligations.RoundTripErrorIsAtMostAThousandth : Prop :=
  ∀ x : Word, fpIsFinite x → fpMag x < 32 * 2 ^ 149 →
    fpIsFinite (expand (compress x).value) ∧
      1000 * (fpScaled (expand (compress x).value) - fpScaled x).natAbs ≤ 2 ^ 149

/-- R156: EXP writes the expand of D[RS][15:0] to D[RD], and RESULT, and nothing else. -/
def Obligations.ExpExpandsARegister : Prop :=
  ∀ (s : State) (rd rs : DReg), ∃ t, exec (.exp rd rs) s = .next t ∧
    t = { s with d := t.d, result := .ok } ∧
    ∀ k : DReg, t.d[k] = if k = rd then expand (s.d[rs].extractLsb' 0 16) else s.d[k]

/-- R158: CMPST and LDEXP at an odd offset or one past PAYLOAD_LEN - 2 fail with BADINDEX (bit 3) and change nothing else;
in DISABLED every offset does. -/
def Obligations.BadPayloadOffsetFails : Prop :=
  ∀ (s : State) (r : DReg) (off : Nat),
    off % 2 ≠ 0 ∨ s.variant.payloadLen < off + 2 ∨ s.variant = .disabled →
      exec (.cmpst off r) s = .next { s with result := .badIndex, sticky := s.sticky ||| 0x08#7 } ∧
      exec (.ldexp r off) s = .next { s with result := .badIndex, sticky := s.sticky ||| 0x08#7 } ∧
      resultByte .badIndex = 0x03

/-- R160: CMPST at a legal offset puts the low byte of the compress at OFF and the high byte at OFF + 1, sets CMP_RANGE
when the input is out of range, and changes no other byte and nothing else but RESULT. -/
def Obligations.CmpstStoresTheField : Prop :=
  ∀ (s : State) (off : Nat) (rs : DReg), BuffersFit s → off % 2 = 0 → off + 2 ≤ s.variant.payloadLen →
    ∃ t, exec (.cmpst off rs) s = .next t ∧
      t = { s with
        paybuf := t.paybuf
        sticky := if (compress s.d[rs]).outOfRange then s.sticky ||| 0x01#7 else s.sticky
        result := .ok } ∧
      t.paybuf.length = s.paybuf.length ∧
      ∀ k : Nat, byteAt t.paybuf k =
        if k = off then (compress s.d[rs]).value.extractLsb' 0 8
        else if k = off + 1 then (compress s.d[rs]).value.extractLsb' 8 8
        else byteAt s.paybuf k

/-- R164: LDEXP at a legal offset writes the expand of the field at OFF of RESPBUF to D[RD], and RESULT, and nothing
else. -/
def Obligations.LdexpLoadsTheField : Prop :=
  ∀ (s : State) (rd : DReg) (off : Nat), off % 2 = 0 → off + 2 ≤ s.variant.payloadLen →
    ∃ t, exec (.ldexp rd off) s = .next t ∧
      t = { s with d := t.d, result := .ok } ∧
      ∀ k : DReg, t.d[k] = if k = rd then expand (byteAt s.respbuf (off + 1) ++ byteAt s.respbuf off) else s.d[k]

/-! ## Packet Codec -/

/-- R126: a PACK of at most PAYLOAD_LEN bytes writes the header and the first SIZE payload bytes, keeps the bytes past
them, and changes nothing else but RESULT. -/
def Obligations.PackFramesThePayload : Prop :=
  ∀ (s : State) (size : Nat), BuffersFit s → size ≤ s.variant.payloadLen →
    ∃ t, exec (.pack size) s = .next t ∧
      t = { s with txbuf := t.txbuf, result := .ok } ∧
      t.txbuf.length = s.txbuf.length ∧
      byteAt t.txbuf 0 = 0x56 ∧
      (∀ k : Nat, k < size → byteAt t.txbuf (1 + k) = byteAt s.paybuf k) ∧
      ∀ k : Nat, size < k → byteAt t.txbuf k = byteAt s.txbuf k

/-- R125, R126: a PACK of more than PAYLOAD_LEN bytes fails with OVERSIZE (bit 1); TXBUF and all else keep their values. -/
def Obligations.OversizePackFails : Prop :=
  ∀ (s : State) (size : Nat), s.variant.payloadLen < size →
    exec (.pack size) s = .next { s with result := .oversize, sticky := s.sticky ||| 0x02#7 } ∧
      resultByte .oversize = 0x01

/-- R127, R128: an UNPACK of a packet with the header 0x56 copies the payload to RESPBUF, clears all of RXBUF, counts the
packet in RATE modulo 2^32, and changes nothing else but RESULT. -/
def Obligations.UnpackAcceptsAGoodHeader : Prop :=
  ∀ s : State, BuffersFit s → byteAt s.rxbuf 0 = 0x56 →
    ∃ t, exec .unpack s = .next t ∧
      t = { s with respbuf := t.respbuf, rxbuf := t.rxbuf, rate := t.rate, result := .ok } ∧
      (∀ k : Nat, k < s.variant.payloadLen → byteAt t.respbuf k = byteAt s.rxbuf (1 + k)) ∧
      t.respbuf.length = s.respbuf.length ∧
      t.rxbuf = List.replicate s.variant.pktLen 0x00 ∧
      t.rate.toNat = (s.rate.toNat + 1) % 2 ^ 32

/-- R129, R130: an UNPACK of any other header fails with INVALID (bit 2) and changes nothing else: RXBUF, RESPBUF and RATE
keep their values. -/
def Obligations.UnpackRejectsABadHeader : Prop :=
  ∀ s : State, byteAt s.rxbuf 0 ≠ 0x56 →
    exec .unpack s = .next { s with result := .invalid, sticky := s.sticky ||| 0x04#7 } ∧
      resultByte .invalid = 0x02

/-- R131: after a PACK of SIZE bytes the packet holds the payload, and if RXBUF receives TXBUF unchanged, UNPACK accepts
it and RESPBUF holds the payload's first SIZE bytes. -/
def Obligations.CodecIsLossless : Prop :=
  ∀ (s : State) (size : Nat), BuffersFit s → size ≤ s.variant.payloadLen →
    ∃ t r, exec (.pack size) s = .next t ∧ exec .unpack { t with rxbuf := t.txbuf } = .next r ∧ r.result = .ok ∧
      ∀ k : Nat, k < size → byteAt t.txbuf (1 + k) = byteAt s.paybuf k ∧ byteAt r.respbuf k = byteAt s.paybuf k

/-- R133: CLRPAY makes every byte of PAYBUF 0x00 and changes nothing else but RESULT. -/
def Obligations.ClrpayClearsTheStagingBuffer : Prop :=
  ∀ s : State, ∃ t, exec .clrpay s = .next t ∧ t = { s with paybuf := t.paybuf, result := .ok } ∧
    t.paybuf.length = s.paybuf.length ∧ ∀ k : Nat, byteAt t.paybuf k = 0x00

/-! ## LQR gain application -/

/-- R220, R221: MATVEC writes U[i] = FF[i] - (sum of the rounded products in increasing column order from +0.0), 9 columns
of K9 or 6 of K6 by MODE, and changes nothing else but RESULT and the model's count of NaN draws. That a component that is a
NaN is the draw numbered by that count and the component is the model's choice (assumption 2). -/
def Obligations.MatvecComputesTheControl : Prop :=
  ∀ s : State, ∃ t, exec .matvec s = .next t ∧
    t = { s with u := t.u, result := .ok, draws := t.draws } ∧
    ∀ i : Fin 4,
      (s.lqr6 = false → t.u[i] = sub32 (drawnNaN (s.draws + i.val)) s.ff[i]
        ((List.finRange 9).foldl (fun acc j => add32 (drawnNaN (s.draws + i.val)) acc
          (mul32 (drawnNaN (s.draws + i.val)) s.k9[i][j] s.err[j])) 0x00000000)) ∧
      (s.lqr6 = true → t.u[i] = sub32 (drawnNaN (s.draws + i.val)) s.ff[i]
        ((List.finRange 6).foldl (fun acc j => add32 (drawnNaN (s.draws + i.val)) acc
          (mul32 (drawnNaN (s.draws + i.val)) s.k6[i][j] s.err[j.val])) 0x00000000))

/-- R225, R6 (NAN_RESULT): a component of MATVEC that is a NaN is a quiet NaN, whatever the draw. -/
def Obligations.MatvecNaNIsQuiet : Prop :=
  ∀ (s t : State) (i : Fin 4), exec .matvec s = .next t → fpIsNaN t.u[i] → fpIsQuietNaN t.u[i]

/-- R224, R225: MATVEC is a function of MODE, the active matrix, ERR and FF only: in two states that agree on them, whatever
else they hold and whatever NaNs they draw, each component is the same, or is a NaN in both. -/
def Obligations.MatvecIsAFunctionOfItsOperands : Prop :=
  ∀ (s s' t t' : State) (i : Fin 4), s'.lqr6 = s.lqr6 → s'.err = s.err → s'.ff = s.ff →
    (s.lqr6 = false → s'.k9 = s.k9) → (s.lqr6 = true → s'.k6 = s.k6) →
    exec .matvec s = .next t → exec .matvec s' = .next t' →
      t'.u[i] = t.u[i] ∨ (fpIsNaN t.u[i] ∧ fpIsNaN t'.u[i])

/-- R223: with every ERR element read a zero and every gain read finite, U is FF bit for bit, -0.0 included, where FF is no
NaN, and a NaN where it is one. -/
def Obligations.ZeroErrorGivesFeedforward : Prop :=
  ∀ s : State,
    (s.lqr6 = false → (∀ j : Fin 9, fpIsZero s.err[j]) ∧ ∀ (i : Fin 4) (j : Fin 9), fpIsFinite s.k9[i][j]) →
    (s.lqr6 = true → (∀ j : Fin 6, fpIsZero s.err[j.val]) ∧ ∀ (i : Fin 4) (j : Fin 6), fpIsFinite s.k6[i][j]) →
      ∃ t, exec .matvec s = .next t ∧
        ∀ i : Fin 4, (¬ fpIsNaN s.ff[i] → t.u[i] = s.ff[i]) ∧ (fpIsNaN s.ff[i] → fpIsNaN t.u[i])

/-- R224: switching the mode there and back writes neither matrix nor ERR nor FF, and MATVEC then gives the U it would have
given without the switch. -/
def Obligations.ModeSwitchAndBackChangesNoControl : Prop :=
  ∀ (s : State) (m : Bool), ∃ t t' r r', exec (.setmode m) s = .next t ∧ exec (.setmode s.lqr6) t = .next t' ∧
    t.k9 = s.k9 ∧ t.k6 = s.k6 ∧ t.err = s.err ∧ t.ff = s.ff ∧
    exec .matvec s = .next r ∧ exec .matvec t' = .next r' ∧ r'.u = r.u

/-- R226: SETK with a column of its bank stores the raw bits of D[RS] in that one entry and changes nothing else but
RESULT, in either mode and every variant. -/
def Obligations.SetkWritesOneGainEntry : Prop :=
  ∀ (s : State) (bank : Bank) (i : Fin 4) (j : Nat) (rs : DReg), j < bank.cols →
    ∃ t, exec (.setk bank i j rs) s = .next t ∧
      t = { s with k9 := t.k9, k6 := t.k6, result := .ok } ∧
      (∀ (r : Fin 4) (c : Fin 9), t.k9[r][c] = if bank = .k9 ∧ r = i ∧ c.val = j then s.d[rs] else s.k9[r][c]) ∧
      ∀ (r : Fin 4) (c : Fin 6), t.k6[r][c] = if bank = .k6 ∧ r = i ∧ c.val = j then s.d[rs] else s.k6[r][c]

/-- R227: a column of 9 or more for K9, of 6 or more for K6, is rejected with BADINDEX (bit 3) and no write. -/
def Obligations.SetkRejectsABadColumn : Prop :=
  ∀ (s : State) (i : Fin 4) (j : Nat) (rs : DReg),
    (9 ≤ j → exec (.setk .k9 i j rs) s = .next { s with result := .badIndex, sticky := s.sticky ||| 0x08#7 }) ∧
    (6 ≤ j → exec (.setk .k6 i j rs) s = .next { s with result := .badIndex, sticky := s.sticky ||| 0x08#7 })

/-- R38, R39, R64: no step but a SETK command and the reset input changes a gain entry: not another command, not a bus
write, not an event of the transport, not the LH step. -/
def Obligations.OnlySetkWritesGains : Prop :=
  ∀ s t : State, step s = .next t → ¬ NextReset s →
    (∀ bank i j rs, ¬ NextCommand s (.setk bank i j rs)) → t.k9 = s.k9 ∧ t.k6 = s.k6

/-! ## Link watchdog -/

/-- R180: the filter is active exactly in 9-state mode with an attitude form and in 6-state mode with the position form. -/
def Obligations.FilterActiveExactly : Prop :=
  ∀ s : State, sfActive s = true ↔
    (s.lqr6 = false ∧ (s.variant = .att ∨ s.variant = .attIt)) ∨ (s.lqr6 = true ∧ s.variant = .pos)

/-- R187: SFCYCLE with the filter inactive writes RESULT 0x05 and changes nothing else. -/
def Obligations.InactiveCycleChangesOnlyResult : Prop :=
  ∀ s : State, sfActive s = false →
    exec .sfcycle s = .next { s with result := .sfInactive } ∧ resultByte .sfInactive = 0x05

/-- R183, R186: SFCYCLE with the filter active and READY = 1 sends the whole of TXBUF, clears PAYBUF, sets READY and MISSED
to 0, replaces U by USF, and changes nothing else but TXBUF, CMP_RANGE and RESULT. -/
def Obligations.ReadyCycleSendsARequest : Prop :=
  ∀ s : State, BuffersFit s → sfActive s = true → s.ready = true →
    ∃ t, exec .sfcycle s = .next t ∧
      t = { s with
        paybuf := t.paybuf
        txbuf := t.txbuf
        events := s.events ++ [.linkSend s.variant.pktLen t.txbuf]
        ready := false
        missed := 0
        u := s.usf
        sticky := t.sticky
        result := .sent } ∧
      t.paybuf = List.replicate s.variant.payloadLen 0x00 ∧
      t.txbuf.length = s.variant.pktLen ∧
      byteAt t.txbuf 0 = 0x56 ∧
      (t.sticky = s.sticky ∨ t.sticky = s.sticky ||| 0x01#7) ∧
      resultByte .sent = 0x20

/-- R182, R122, R123: the payload SFCYCLE sends holds the compressed value of each field's source at the field's offset, and
0x00 in every byte that carries no sent field; CMP_RANGE is set when one of the sources is out of range. -/
def Obligations.RequestHoldsItsFields : Prop :=
  ∀ s t : State, BuffersFit s → sfActive s = true → s.ready = true → exec .sfcycle s = .next t →
    (s.variant = .pos →
      (∀ k : Fin 6, le16 t.txbuf (1 + 2 * k.val) = (compress s.sv[k.val]).value) ∧
      (∀ i : Fin 4, le16 t.txbuf (13 + 2 * i.val) = (compress s.u[i]).value) ∧
      (t.sticky = if (∃ k : Fin 6, (compress s.sv[k.val]).outOfRange = true) ∨
          (∃ i : Fin 4, (compress s.u[i]).outOfRange = true) then s.sticky ||| 0x01#7 else s.sticky)) ∧
    (s.variant = .att ∨ s.variant = .attIt →
      le16 t.txbuf 1 = (compress s.sv[6]).value ∧
      le16 t.txbuf 3 = (compress s.sv[7]).value ∧
      (∀ i : Fin 4, le16 t.txbuf (5 + 2 * i.val) = (compress s.u[i]).value) ∧
      (∀ k : Nat, 13 ≤ k → byteAt t.txbuf k = 0x00) ∧
      (t.sticky = if (compress s.sv[6]).outOfRange = true ∨ (compress s.sv[7]).outOfRange = true ∨
          (∃ i : Fin 4, (compress s.u[i]).outOfRange = true) then s.sticky ||| 0x01#7 else s.sticky))

/-- R184, R186: SFCYCLE with a request outstanding and MISSED below THRESH counts one miss, sends nothing, replaces U by USF,
and changes nothing else but RESULT. -/
def Obligations.MissedCycleCounts : Prop :=
  ∀ s : State, sfActive s = true → s.ready = false → s.missed.toNat < 200 →
    exec .sfcycle s = .next { s with missed := s.missed + 1, u := s.usf, result := .missed } ∧
      resultByte .missed = 0x21

/-- R185, R184, R29: when the incremented MISSED exceeds 200, SFCYCLE puts four +0.0 words in USF and U, re-arms READY, sets
FSTOP (bit 5), keeps the incremented MISSED (saturating at 0xFFFFFFFF), sends nothing and changes nothing else but RESULT. -/
def Obligations.ForcedStopAboveThreshold : Prop :=
  ∀ s : State, sfActive s = true → s.ready = false → 200 ≤ s.missed.toNat →
    exec .sfcycle s = .next { s with
      missed := if s.missed = 0xFFFFFFFF then 0xFFFFFFFF else s.missed + 1
      usf := #v[0, 0, 0, 0]
      u := #v[0, 0, 0, 0]
      ready := true
      sticky := s.sticky ||| 0x20#7
      result := .forcedStop } ∧
      resultByte .forcedStop = 0x22

/-- R189 for consecutive SFCYCLEs, with no other step between them: from Ready the first SFCYCLE sends; the n-th after it, up
to the 200th, leaves MISSED = n with RESULT 0x21 and USF unchanged; the 201st takes the forced stop; the next sends again
with MISSED 0. That steps of another kind in between change none of MISSED, READY and USF, but for an applied response and
the reset input, is AtMostOneRequestOutstanding's. -/
def Obligations.ForcedStopFiresAtExactly201 : Prop :=
  ∀ s : State, sfActive s = true → s.ready = true →
    ∃ t0, exec .sfcycle s = .next t0 ∧ t0.result = .sent ∧
      (∀ n : Nat, 1 ≤ n → n ≤ 200 → ∃ t, execAll (List.replicate n .sfcycle) t0 = .next t ∧
        t.missed.toNat = n ∧ t.result = .missed ∧ t.usf = s.usf ∧ t.u = s.usf ∧ t.ready = false ∧
          t.events = t0.events) ∧
      ∃ t1, execAll (List.replicate 201 .sfcycle) t0 = .next t1 ∧
        t1.missed.toNat = 201 ∧ t1.result = .forcedStop ∧ t1.usf = #v[0, 0, 0, 0] ∧ t1.u = #v[0, 0, 0, 0] ∧
          t1.ready = true ∧ t1.sticky.getLsbD 5 = true ∧ t1.events = t0.events ∧
        ∃ t2, exec .sfcycle t1 = .next t2 ∧ t2.result = .sent ∧ t2.missed = 0 ∧ t2.ready = false ∧
          t2.events = t1.events ++ [.linkSend s.variant.pktLen t2.txbuf]

/-- R190, R198: the LH step on a bad header clears NOTIFY, sets INVALID (bit 2), writes LHRES, asks for a resynchronisation
and changes nothing else: RXBUF, READY, MISSED, USF and U keep their values. -/
def Obligations.LinkHandlerResyncsOnABadHeader : Prop :=
  ∀ (s : State) (rest : List Input), s.inputs = .linkHandler :: rest → s.notify = true → byteAt s.rxbuf 0 ≠ 0x56 →
    step s = .next { s with
      inputs := rest
      notify := false
      sticky := s.sticky ||| 0x04#7
      lhres := .invalidResync
      events := s.events ++ [.linkResync s.variant.pktLen] } ∧
      lhByte .invalidResync = 0x02

/-- R190, R191, R192: the LH step on a good packet with a request outstanding and the filter active unpacks it, expands its
control fields into USF, in ATT_IT copies its iteration count, re-arms READY, resets MISSED, and changes nothing else; U
waits for the next SFCYCLE. -/
def Obligations.LinkHandlerAppliesAResponse : Prop :=
  ∀ (s : State) (rest : List Input), BuffersFit s → s.inputs = .linkHandler :: rest → s.notify = true →
    byteAt s.rxbuf 0 = 0x56 → s.ready = false → sfActive s = true →
      ∃ t, step s = .next t ∧
        t = { s with
          inputs := rest
          notify := false
          respbuf := t.respbuf
          rxbuf := List.replicate s.variant.pktLen 0x00
          rate := s.rate + 1
          usf := t.usf
          iters := if s.variant = .attIt then le16 s.rxbuf 13 else s.iters
          ready := true
          missed := 0
          lhres := .applied } ∧
        (∀ k : Nat, k < s.variant.payloadLen → byteAt t.respbuf k = byteAt s.rxbuf (1 + k)) ∧
        (∀ i : Fin 4, t.usf[i] = expand (le16 s.rxbuf ((if s.variant = .pos then 13 else 5) + 2 * i.val))) ∧
        lhByte .applied = 0x01

/-- R191: a good packet with no request outstanding or the filter inactive is unpacked and counted but not applied: STALE
(bit 6) and LHRES are written, and USF, U, ITERS, READY and MISSED keep their values. -/
def Obligations.LinkHandlerDiscardsAStalePacket : Prop :=
  ∀ (s : State) (rest : List Input), BuffersFit s → s.inputs = .linkHandler :: rest → s.notify = true →
    byteAt s.rxbuf 0 = 0x56 → s.ready = true ∨ sfActive s = false →
      ∃ t, step s = .next t ∧
        t = { s with
          inputs := rest
          notify := false
          respbuf := t.respbuf
          rxbuf := List.replicate s.variant.pktLen 0x00
          rate := s.rate + 1
          sticky := s.sticky ||| 0x40#7
          lhres := .stale } ∧
        (∀ k : Nat, k < s.variant.payloadLen → byteAt t.respbuf k = byteAt s.rxbuf (1 + k)) ∧
        lhByte .stale = 0x03

/-- R193, R194: RxByte(k, b) writes RXBUF[k] when k is below PKT_LEN and is ignored otherwise; RxNotify sets NOTIFY; neither
changes anything else. -/
def Obligations.TransportEventsWriteOnlyTheirTarget : Prop :=
  ∀ (s : State) (rest : List Input),
    (∀ (k : Nat) (b : Byte), BuffersFit s → s.inputs = .rxByte k b :: rest →
      ∃ t, step s = .next t ∧ t = { s with inputs := rest, rxbuf := t.rxbuf } ∧
        t.rxbuf.length = s.rxbuf.length ∧
        ∀ n : Nat, byteAt t.rxbuf n = if n = k ∧ k < s.variant.pktLen then b else byteAt s.rxbuf n) ∧
    (s.inputs = .rxNotify :: rest → step s = .next { s with inputs := rest, notify := true })

/-- R199, R191, R27, R29, R36: the reset input apart, a step that sends finds READY = 1 and leaves READY = 0, a step that
re-arms READY is an applied response or a forced stop, and a step that is neither an SFCYCLE nor an LH step that applies a
response changes none of READY, MISSED and USF. -/
def Obligations.AtMostOneRequestOutstanding : Prop :=
  ∀ s t : State, step s = .next t → ¬ NextReset s →
    (∀ n bytes, t.events = s.events ++ [.linkSend n bytes] → s.ready = true ∧ t.ready = false) ∧
    (s.ready = false → t.ready = true →
      (t.lhres = .applied ∧ t.missed = 0 ∧ t.u = s.u) ∨
      (t.result = .forcedStop ∧ 200 ≤ s.missed.toNat ∧ t.usf = #v[0, 0, 0, 0] ∧ t.u = #v[0, 0, 0, 0])) ∧
    (¬ NextCommand s .sfcycle → ¬ AppliesResponse s →
      t.ready = s.ready ∧ t.missed = s.missed ∧ t.usf = s.usf)

/-- R196, R195: each step other than the reset input leaves the outbound sequence as it was or appends one event, and that a
LinkSend only in the Ready path of SFCYCLE. -/
def Obligations.EachStepEmitsAtMostOneEvent : Prop :=
  ∀ s t : State, step s = .next t → ¬ NextReset s →
    t.events = s.events ∨
    (∃ bytes, t.events = s.events ++ [.linkSend s.variant.pktLen bytes] ∧ bytes = t.txbuf ∧
      NextCommand s .sfcycle ∧ sfActive s = true ∧ s.ready = true) ∨
    t.events = s.events ++ [.linkResync s.variant.pktLen]

/-! ## The register window -/

/-- R61: where each register stands, by offset. -/
def Obligations.RegisterMapPlaces : Prop :=
  regAt 0x000 = .config ∧ regAt 0x004 = .mode ∧ regAt 0x008 = .status ∧ regAt 0x00C = .cmd ∧ regAt 0x010 = .result ∧
  regAt 0x014 = .lhres ∧ regAt 0x018 = .missed ∧ regAt 0x01C = .rate ∧ regAt 0x020 = .iters ∧
  (∀ i : Fin 16, regAt (0x040 + 4 * i.val) = .d i) ∧
  (∀ j : Fin 9, regAt (0x080 + 4 * j.val) = .err j) ∧
  (∀ i : Fin 4, regAt (0x0B0 + 4 * i.val) = .ff i ∧ regAt (0x0C0 + 4 * i.val) = .u i ∧
    regAt (0x0D0 + 4 * i.val) = .usf i) ∧
  (∀ k : Fin 9, regAt (0x100 + 4 * k.val) = .sv k) ∧
  (∀ (i : Fin 4) (j : Fin 9), regAt (0x200 + 4 * (9 * i.val + j.val)) = .k9 i j) ∧
  (∀ (i : Fin 4) (j : Fin 6), regAt (0x300 + 4 * (6 * i.val + j.val)) = .k6 i j) ∧
  (∀ w : Fin 5, regAt (0x400 + 4 * w.val) = .paybuf w ∧ regAt (0x4C0 + 4 * w.val) = .respbuf w) ∧
  (∀ w : Fin 6, regAt (0x440 + 4 * w.val) = .txbuf w ∧ regAt (0x480 + 4 * w.val) = .rxbuf w) ∧
  ∀ off : Nat,
    (0x024 ≤ off ∧ off < 0x040) ∨ (0x0A4 ≤ off ∧ off < 0x0B0) ∨ (0x0E0 ≤ off ∧ off < 0x100) ∨
    (0x124 ≤ off ∧ off < 0x200) ∨ (0x290 ≤ off ∧ off < 0x300) ∨ (0x360 ≤ off ∧ off < 0x400) ∨
    (0x414 ≤ off ∧ off < 0x440) ∨ (0x458 ≤ off ∧ off < 0x480) ∨ (0x498 ≤ off ∧ off < 0x4C0) ∨
    (0x4D4 ≤ off ∧ off < 0x800) → regAt off = .reserved

/-- R62: an access that is not 32 bits wide, or not at a multiple of 4, gets an error response and has no effect on the
block. -/
def Obligations.BadAccessGetsAnErrorResponse : Prop :=
  ∀ (s : State) (width : Width) (off : Offset) (rest : List Input), width ≠ .word ∨ off.toNat % 4 ≠ 0 →
    (s.inputs = .busRead width off :: rest → step s = .next { s with inputs := rest, response := .error }) ∧
    ∀ v : Word, s.inputs = .busWrite width off v :: rest →
      step s = .next { s with inputs := rest, response := .error }

/-- R63, with R23 to R38 and R260, R261 for the values: a bus read returns the register's value and has no side effect. CMD
and the reserved offsets read 0; RESULT and LHRES read their zero-extended code bytes, ITERS its zero-extended count, MODE
its one bit, STATUS the sticky bits and the two mirrors, and every other register, CONFIG (R22, ConfigIsFixed) and the
buffers (R65, BufferWordsCarryTheirBytes) apart, its own word. -/
def Obligations.BusReadHasNoSideEffect : Prop :=
  (∀ (s : State) (off : Offset) (rest : List Input), s.inputs = .busRead .word off :: rest → off.toNat % 4 = 0 →
    step s = .next { s with inputs := rest, response := .data (readReg (regAt off.toNat) s) } ∧
      (regAt off.toNat = .cmd ∨ regAt off.toNat = .reserved → readReg (regAt off.toNat) s = 0x00000000)) ∧
  ∀ s : State,
    (readReg .result s =
      match s.result with
      | .ok => 0x00000000
      | .oversize => 0x00000001
      | .invalid => 0x00000002
      | .badIndex => 0x00000003
      | .illegal => 0x00000004
      | .sfInactive => 0x00000005
      | .sent => 0x00000020
      | .missed => 0x00000021
      | .forcedStop => 0x00000022) ∧
    (readReg .lhres s =
      match s.lhres with
      | .none => 0x00000000
      | .applied => 0x00000001
      | .invalidResync => 0x00000002
      | .stale => 0x00000003) ∧
    (readReg .mode s = if s.lqr6 then 0x00000001 else 0x00000000) ∧
    (∀ n : Nat, (readReg .status s).getLsbD n =
      if n < 7 then s.sticky.getLsbD n else if n = 16 then s.ready else if n = 17 then s.notify else false) ∧
    readReg .missed s = s.missed ∧ readReg .rate s = s.rate ∧ (readReg .iters s).toNat = s.iters.toNat ∧
    (∀ i : Fin 16, readReg (.d i) s = s.d[i]) ∧
    (∀ j : Fin 9, readReg (.err j) s = s.err[j] ∧ readReg (.sv j) s = s.sv[j]) ∧
    (∀ i : Fin 4, readReg (.ff i) s = s.ff[i] ∧ readReg (.u i) s = s.u[i] ∧ readReg (.usf i) s = s.usf[i]) ∧
    (∀ (i : Fin 4) (j : Fin 9), readReg (.k9 i j) s = s.k9[i][j]) ∧
    ∀ (i : Fin 4) (j : Fin 6), readReg (.k6 i j) s = s.k6[i][j]

/-- R64: a bus write to a D, ERR, FF, U or SV register replaces it: it reads back as written, and every other register of
the window and the outbound sequence are unchanged. -/
def Obligations.DataRegisterWriteReadsBack : Prop :=
  ∀ (s : State) (off : Offset) (v : Word), off.toNat % 4 = 0 →
    (0x040 ≤ off.toNat ∧ off.toNat < 0x0A4) ∨ (0x0B0 ≤ off.toNat ∧ off.toNat < 0x0D0) ∨
      (0x100 ≤ off.toNat ∧ off.toNat < 0x124) →
      ∃ t, busWrite .word off v s = .next t ∧ readReg (regAt off.toNat) t = v ∧ t.response = .done ∧
        t.events = s.events ∧
        ∀ other : Offset, other.toNat % 4 = 0 → other ≠ off →
          readReg (regAt other.toNat) t = readReg (regAt other.toNat) s

/-- R64: a bus write to a read-only register or a reserved offset is ignored, with a normal response: CONFIG, RESULT, LHRES,
MISSED, RATE, ITERS, USF, the gains, TXBUF, RXBUF, RESPBUF and every reserved offset. -/
def Obligations.ReadOnlyWriteIsIgnored : Prop :=
  ∀ (s : State) (off : Offset) (v : Word), off.toNat % 4 = 0 → off.toNat ≠ 0x004 → off.toNat ≠ 0x008 →
    off.toNat ≠ 0x00C → ¬ (0x040 ≤ off.toNat ∧ off.toNat < 0x0A4) → ¬ (0x0B0 ≤ off.toNat ∧ off.toNat < 0x0D0) →
    ¬ (0x100 ≤ off.toNat ∧ off.toNat < 0x124) → ¬ (0x400 ≤ off.toNat ∧ off.toNat < 0x414) →
      busWrite .word off v s = .next { s with response := .done }

/-- R23, R24: a bus write of MODE keeps bits [31:1] zero; a bus write of STATUS clears each of bits [6:0] where the value has
a 1 and leaves the others, with READY in bit 16, NOTIFY in bit 17 and every other bit 0. -/
def Obligations.ModeAndStatusWrites : Prop :=
  ∀ (s : State) (v : Word),
    (∃ t, busWrite .word 0x004 v s = .next t ∧ t = { s with lqr6 := t.lqr6, response := .done } ∧
      readReg .mode t = v &&& 0x00000001) ∧
    ∃ t, busWrite .word 0x008 v s = .next t ∧ t = { s with sticky := t.sticky, response := .done } ∧
      ∀ n : Nat, n < 32 → (readReg .status t).getLsbD n =
        if n < 7 then (readReg .status s).getLsbD n && !v.getLsbD n
        else if n = 16 then s.ready else if n = 17 then s.notify else false

/-- R65: a bus write of word w of PAYBUF writes its bytes below PAYLOAD_LEN and no others, the lowest byte from bits [7:0];
a bus read of a buffer word carries byte 4w + b in bits [8b+7:8b], 0x00 past the buffer's end. -/
def Obligations.BufferWordsCarryTheirBytes : Prop :=
  (∀ (s : State) (w : Fin 5) (v : Word), BuffersFit s →
    ∃ t, busWrite .word (BitVec.ofNat 11 (0x400 + 4 * w.val)) v s = .next t ∧
      t = { s with paybuf := t.paybuf, response := .done } ∧ t.paybuf.length = s.paybuf.length ∧
      ∀ k : Nat, byteAt t.paybuf k =
        if 4 * w.val ≤ k ∧ k < 4 * w.val + 4 ∧ k < s.variant.payloadLen then v.extractLsb' (8 * (k - 4 * w.val)) 8
        else byteAt s.paybuf k) ∧
  ∀ (s : State) (b : Fin 4),
    (∀ w : Fin 5, (readReg (.paybuf w) s).extractLsb' (8 * b.val) 8 = byteAt s.paybuf (4 * w.val + b.val) ∧
      (readReg (.respbuf w) s).extractLsb' (8 * b.val) 8 = byteAt s.respbuf (4 * w.val + b.val)) ∧
    ∀ w : Fin 6, (readReg (.txbuf w) s).extractLsb' (8 * b.val) 8 = byteAt s.txbuf (4 * w.val + b.val) ∧
      (readReg (.rxbuf w) s).extractLsb' (8 * b.val) 8 = byteAt s.rxbuf (4 * w.val + b.val)

/-- R22: CONFIG reads the variant, PAYLOAD_LEN and PKT_LEN in their fields, and no step of any agent changes it. -/
def Obligations.ConfigIsFixed : Prop :=
  (∀ s : State, readReg .config s =
    match s.variant with
    | .disabled => 0x00010000
    | .pos => 0x00151401
    | .att => 0x00111002
    | .attIt => 0x00151403) ∧
  ∀ s t : State, step s = .next t → readReg .config t = readReg .config s

/-! ## Reset and the invariant -/

/-- R290, R291: what reset leaves, for whichever variant and gains the OPEN parameters fix. -/
def Obligations.ResetLeavesTheResetValues : Prop :=
  readReg .config State.reset = configWord Config.sfVariant ∧ readReg .mode State.reset = 0 ∧
  readReg .status State.reset = 0x00010000 ∧ readReg .result State.reset = 0 ∧ readReg .lhres State.reset = 0 ∧
  State.reset.ready = true ∧ State.reset.notify = false ∧
  State.reset.missed = 0 ∧ State.reset.rate = 0 ∧ State.reset.iters = 0 ∧
  (∀ i : Fin 16, State.reset.d[i] = 0) ∧ (∀ j : Fin 9, State.reset.err[j] = 0 ∧ State.reset.sv[j] = 0) ∧
  (∀ i : Fin 4, State.reset.ff[i] = 0 ∧ State.reset.u[i] = 0 ∧ State.reset.usf[i] = 0) ∧
  State.reset.k9 = Config.k9Init ∧ State.reset.k6 = Config.k6Init ∧
  State.reset.paybuf = List.replicate State.reset.variant.payloadLen 0x00 ∧
  State.reset.txbuf = List.replicate State.reset.variant.pktLen 0x00 ∧
  State.reset.rxbuf = List.replicate State.reset.variant.pktLen 0x00 ∧
  State.reset.respbuf = List.replicate State.reset.variant.payloadLen 0x00 ∧
  State.reset.events =
    if State.reset.variant = .disabled then [] else [.linkStart 115200 State.reset.variant.pktLen]

/-- R292, R290: the reset input of any state restores the state a block of its variant leaves reset with; the pending steps
and the count of NaN draws, which are the model's own (assumptions 2 and 3), go on. That the outbound sequence starts again
with the events of leaving reset, and that the reset input is one atomic step, is the model's deduction (assumption 6). -/
def Obligations.ResetInputRestoresTheResetState : Prop :=
  State.reset = State.powerOn State.reset.variant ∧
  ∀ (s : State) (rest : List Input), s.inputs = .reset :: rest →
    step s = .next { State.powerOn s.variant with inputs := rest, draws := s.draws }

/-- The state after reset is sound. -/
def Obligations.ResetIsSound : Prop := Sound State.reset

/-- R29, R31, R40 to R44, R124, R188, R196, R197: from every sound state each step gives a sound state: the buffers keep the
variant's lengths, MISSED never exceeds 201 and never 200 while a request is outstanding, ITERS is 0 outside ATT_IT, a
DISABLED block stays in Ready with USF zero, and every outbound event has its size and header. -/
def Obligations.EveryStepKeepsSound : Prop :=
  ∀ s t : State, Sound s → step s = .next t → Sound t

/-! ## Binary32 arithmetic -/

/-- R9: the rounding of a magnitude num/den (in units of 2^-149) gives the nearest binary32, the one with an even significand
where two are equally near, and an infinity from half a unit in the last place above the largest finite value on. On finite
operands mul32, add32, sub32 and div32 (by a divisor that is no zero) and the conversion of an integer give the exact
result so rounded, with its sign; an exact zero sum is +0.0 but for -0.0 + -0.0, and an exact zero difference +0.0 but for
-0.0 - +0.0. -/
def Obligations.RoundingIsNearestEven : Prop :=
  (∀ (neg : Bool) (num den : Nat), 0 < den → RoundsTo neg num den (fpPattern neg (roundMag num den))) ∧
  (∀ nan a b : Word, fpIsFinite a → fpIsFinite b →
    RoundsTo (fpSign a != fpSign b) (fpMag a * fpMag b) (2 ^ 149) (mul32 nan a b) ∧
    (fpScaled a + fpScaled b ≠ 0 →
      RoundsTo (decide (fpScaled a + fpScaled b < 0)) (fpScaled a + fpScaled b).natAbs 1 (add32 nan a b)) ∧
    (fpScaled a + fpScaled b = 0 →
      add32 nan a b = if fpSign a = true ∧ fpSign b = true then 0x80000000 else 0x00000000) ∧
    (fpScaled a - fpScaled b ≠ 0 →
      RoundsTo (decide (fpScaled a - fpScaled b < 0)) (fpScaled a - fpScaled b).natAbs 1 (sub32 nan a b)) ∧
    (fpScaled a - fpScaled b = 0 →
      sub32 nan a b = if fpSign a = true ∧ fpSign b = false then 0x80000000 else 0x00000000) ∧
    (¬ fpIsZero b → RoundsTo (fpSign a != fpSign b) (fpMag a * 2 ^ 149) (fpMag b) (div32 nan a b))) ∧
  ∀ i : Int, RoundsTo (decide (i < 0)) (i.natAbs * 2 ^ 149) 1 (f32OfInt i)

/-- R225, R9: the special values. A NaN operand gives a NaN result. Infinity times a finite nonzero value, or another
infinity, is an infinity of the product's sign; infinity times zero, the sum of opposite infinities and the difference of
like ones are NaN results; an infinity plus or minus a finite value, or one that does not oppose it, is that infinity, and a
finite value minus an infinity the opposite one. Quotients: infinity by infinity and zero by zero are NaN results, infinity
by a finite value and a finite nonzero value by zero are infinities, a finite value by infinity a zero, of the quotient's
sign. -/
def Obligations.SpecialValuesOfProductsAndSums : Prop :=
  ∀ nan a b : Word,
    (fpIsNaN a ∨ fpIsNaN b →
      mul32 nan a b = nan ∧ add32 nan a b = nan ∧ sub32 nan a b = nan ∧ div32 nan a b = nan) ∧
    (fpIsInf a → fpIsFinite b → ¬ fpIsZero b →
      mul32 nan a b = fpInf (fpSign a != fpSign b) ∧ mul32 nan b a = fpInf (fpSign a != fpSign b)) ∧
    (fpIsInf a → fpIsInf b → mul32 nan a b = fpInf (fpSign a != fpSign b)) ∧
    (fpIsInf a → fpIsZero b → mul32 nan a b = nan ∧ mul32 nan b a = nan) ∧
    (fpIsInf a → fpIsInf b → fpSign a ≠ fpSign b → add32 nan a b = nan ∧ sub32 nan a b = a) ∧
    (fpIsInf a → fpIsInf b → fpSign a = fpSign b → add32 nan a b = a ∧ sub32 nan a b = nan) ∧
    (fpIsInf a → fpIsFinite b →
      add32 nan a b = a ∧ add32 nan b a = a ∧ sub32 nan a b = a ∧ sub32 nan b a = fpInf (!fpSign a)) ∧
    (fpIsInf a → fpIsInf b → div32 nan a b = nan) ∧
    (fpIsZero a → fpIsZero b → div32 nan a b = nan) ∧
    (fpIsInf a → fpIsFinite b → div32 nan a b = fpInf (fpSign a != fpSign b)) ∧
    (fpIsFinite a → ¬ fpIsZero a → fpIsZero b → div32 nan a b = fpInf (fpSign a != fpSign b)) ∧
    (fpIsFinite a → fpIsInf b → div32 nan a b = fpPattern (fpSign a != fpSign b) 0)
end

