-- ==== Sys2Proof/Laws/State.lean ====
section
/-! SUPPORT. What each shared update of the state does to each field, so that no later proof unfolds a record update. -/

namespace Sys2Proof.Machine

@[simp] theorem finish_variant (c : ResultCode) (s : State) : (finish c s).variant = s.variant := rfl
@[simp] theorem finish_lqr6 (c : ResultCode) (s : State) : (finish c s).lqr6 = s.lqr6 := rfl
@[simp] theorem finish_sticky (c : ResultCode) (s : State) : (finish c s).sticky = s.sticky := rfl
@[simp] theorem finish_result (c : ResultCode) (s : State) : (finish c s).result = c := rfl
@[simp] theorem finish_lhres (c : ResultCode) (s : State) : (finish c s).lhres = s.lhres := rfl
@[simp] theorem finish_ready (c : ResultCode) (s : State) : (finish c s).ready = s.ready := rfl
@[simp] theorem finish_notify (c : ResultCode) (s : State) : (finish c s).notify = s.notify := rfl
@[simp] theorem finish_missed (c : ResultCode) (s : State) : (finish c s).missed = s.missed := rfl
@[simp] theorem finish_rate (c : ResultCode) (s : State) : (finish c s).rate = s.rate := rfl
@[simp] theorem finish_iters (c : ResultCode) (s : State) : (finish c s).iters = s.iters := rfl
@[simp] theorem finish_d (c : ResultCode) (s : State) : (finish c s).d = s.d := rfl
@[simp] theorem finish_err (c : ResultCode) (s : State) : (finish c s).err = s.err := rfl
@[simp] theorem finish_ff (c : ResultCode) (s : State) : (finish c s).ff = s.ff := rfl
@[simp] theorem finish_u (c : ResultCode) (s : State) : (finish c s).u = s.u := rfl
@[simp] theorem finish_usf (c : ResultCode) (s : State) : (finish c s).usf = s.usf := rfl
@[simp] theorem finish_sv (c : ResultCode) (s : State) : (finish c s).sv = s.sv := rfl
@[simp] theorem finish_k9 (c : ResultCode) (s : State) : (finish c s).k9 = s.k9 := rfl
@[simp] theorem finish_k6 (c : ResultCode) (s : State) : (finish c s).k6 = s.k6 := rfl
@[simp] theorem finish_paybuf (c : ResultCode) (s : State) : (finish c s).paybuf = s.paybuf := rfl
@[simp] theorem finish_txbuf (c : ResultCode) (s : State) : (finish c s).txbuf = s.txbuf := rfl
@[simp] theorem finish_rxbuf (c : ResultCode) (s : State) : (finish c s).rxbuf = s.rxbuf := rfl
@[simp] theorem finish_respbuf (c : ResultCode) (s : State) : (finish c s).respbuf = s.respbuf := rfl
@[simp] theorem finish_events (c : ResultCode) (s : State) : (finish c s).events = s.events := rfl
@[simp] theorem finish_response (c : ResultCode) (s : State) : (finish c s).response = s.response := rfl
@[simp] theorem finish_inputs (c : ResultCode) (s : State) : (finish c s).inputs = s.inputs := rfl
@[simp] theorem finish_draws (c : ResultCode) (s : State) : (finish c s).draws = s.draws := rfl

@[simp] theorem raiseBit_variant (b : StickyBit) (s : State) : (raiseBit b s).variant = s.variant := rfl
@[simp] theorem raiseBit_lqr6 (b : StickyBit) (s : State) : (raiseBit b s).lqr6 = s.lqr6 := rfl
@[simp] theorem raiseBit_sticky (b : StickyBit) (s : State) : (raiseBit b s).sticky = s.sticky ||| stickyMask b := rfl
@[simp] theorem raiseBit_result (b : StickyBit) (s : State) : (raiseBit b s).result = s.result := rfl
@[simp] theorem raiseBit_lhres (b : StickyBit) (s : State) : (raiseBit b s).lhres = s.lhres := rfl
@[simp] theorem raiseBit_ready (b : StickyBit) (s : State) : (raiseBit b s).ready = s.ready := rfl
@[simp] theorem raiseBit_notify (b : StickyBit) (s : State) : (raiseBit b s).notify = s.notify := rfl
@[simp] theorem raiseBit_missed (b : StickyBit) (s : State) : (raiseBit b s).missed = s.missed := rfl
@[simp] theorem raiseBit_rate (b : StickyBit) (s : State) : (raiseBit b s).rate = s.rate := rfl
@[simp] theorem raiseBit_iters (b : StickyBit) (s : State) : (raiseBit b s).iters = s.iters := rfl
@[simp] theorem raiseBit_d (b : StickyBit) (s : State) : (raiseBit b s).d = s.d := rfl
@[simp] theorem raiseBit_err (b : StickyBit) (s : State) : (raiseBit b s).err = s.err := rfl
@[simp] theorem raiseBit_ff (b : StickyBit) (s : State) : (raiseBit b s).ff = s.ff := rfl
@[simp] theorem raiseBit_u (b : StickyBit) (s : State) : (raiseBit b s).u = s.u := rfl
@[simp] theorem raiseBit_usf (b : StickyBit) (s : State) : (raiseBit b s).usf = s.usf := rfl
@[simp] theorem raiseBit_sv (b : StickyBit) (s : State) : (raiseBit b s).sv = s.sv := rfl
@[simp] theorem raiseBit_k9 (b : StickyBit) (s : State) : (raiseBit b s).k9 = s.k9 := rfl
@[simp] theorem raiseBit_k6 (b : StickyBit) (s : State) : (raiseBit b s).k6 = s.k6 := rfl
@[simp] theorem raiseBit_paybuf (b : StickyBit) (s : State) : (raiseBit b s).paybuf = s.paybuf := rfl
@[simp] theorem raiseBit_txbuf (b : StickyBit) (s : State) : (raiseBit b s).txbuf = s.txbuf := rfl
@[simp] theorem raiseBit_rxbuf (b : StickyBit) (s : State) : (raiseBit b s).rxbuf = s.rxbuf := rfl
@[simp] theorem raiseBit_respbuf (b : StickyBit) (s : State) : (raiseBit b s).respbuf = s.respbuf := rfl
@[simp] theorem raiseBit_events (b : StickyBit) (s : State) : (raiseBit b s).events = s.events := rfl
@[simp] theorem raiseBit_response (b : StickyBit) (s : State) : (raiseBit b s).response = s.response := rfl
@[simp] theorem raiseBit_inputs (b : StickyBit) (s : State) : (raiseBit b s).inputs = s.inputs := rfl
@[simp] theorem raiseBit_draws (b : StickyBit) (s : State) : (raiseBit b s).draws = s.draws := rfl

@[simp] theorem fail_variant (c : ResultCode) (b : StickyBit) (s : State) : (fail c b s).variant = s.variant := rfl
@[simp] theorem fail_lqr6 (c : ResultCode) (b : StickyBit) (s : State) : (fail c b s).lqr6 = s.lqr6 := rfl
@[simp] theorem fail_sticky (c : ResultCode) (b : StickyBit) (s : State) : (fail c b s).sticky = s.sticky ||| stickyMask b := rfl
@[simp] theorem fail_result (c : ResultCode) (b : StickyBit) (s : State) : (fail c b s).result = c := rfl
@[simp] theorem fail_lhres (c : ResultCode) (b : StickyBit) (s : State) : (fail c b s).lhres = s.lhres := rfl
@[simp] theorem fail_ready (c : ResultCode) (b : StickyBit) (s : State) : (fail c b s).ready = s.ready := rfl
@[simp] theorem fail_notify (c : ResultCode) (b : StickyBit) (s : State) : (fail c b s).notify = s.notify := rfl
@[simp] theorem fail_missed (c : ResultCode) (b : StickyBit) (s : State) : (fail c b s).missed = s.missed := rfl
@[simp] theorem fail_rate (c : ResultCode) (b : StickyBit) (s : State) : (fail c b s).rate = s.rate := rfl
@[simp] theorem fail_iters (c : ResultCode) (b : StickyBit) (s : State) : (fail c b s).iters = s.iters := rfl
@[simp] theorem fail_d (c : ResultCode) (b : StickyBit) (s : State) : (fail c b s).d = s.d := rfl
@[simp] theorem fail_err (c : ResultCode) (b : StickyBit) (s : State) : (fail c b s).err = s.err := rfl
@[simp] theorem fail_ff (c : ResultCode) (b : StickyBit) (s : State) : (fail c b s).ff = s.ff := rfl
@[simp] theorem fail_u (c : ResultCode) (b : StickyBit) (s : State) : (fail c b s).u = s.u := rfl
@[simp] theorem fail_usf (c : ResultCode) (b : StickyBit) (s : State) : (fail c b s).usf = s.usf := rfl
@[simp] theorem fail_sv (c : ResultCode) (b : StickyBit) (s : State) : (fail c b s).sv = s.sv := rfl
@[simp] theorem fail_k9 (c : ResultCode) (b : StickyBit) (s : State) : (fail c b s).k9 = s.k9 := rfl
@[simp] theorem fail_k6 (c : ResultCode) (b : StickyBit) (s : State) : (fail c b s).k6 = s.k6 := rfl
@[simp] theorem fail_paybuf (c : ResultCode) (b : StickyBit) (s : State) : (fail c b s).paybuf = s.paybuf := rfl
@[simp] theorem fail_txbuf (c : ResultCode) (b : StickyBit) (s : State) : (fail c b s).txbuf = s.txbuf := rfl
@[simp] theorem fail_rxbuf (c : ResultCode) (b : StickyBit) (s : State) : (fail c b s).rxbuf = s.rxbuf := rfl
@[simp] theorem fail_respbuf (c : ResultCode) (b : StickyBit) (s : State) : (fail c b s).respbuf = s.respbuf := rfl
@[simp] theorem fail_events (c : ResultCode) (b : StickyBit) (s : State) : (fail c b s).events = s.events := rfl
@[simp] theorem fail_response (c : ResultCode) (b : StickyBit) (s : State) : (fail c b s).response = s.response := rfl
@[simp] theorem fail_inputs (c : ResultCode) (b : StickyBit) (s : State) : (fail c b s).inputs = s.inputs := rfl
@[simp] theorem fail_draws (c : ResultCode) (b : StickyBit) (s : State) : (fail c b s).draws = s.draws := rfl

@[simp] theorem emit_variant (e : OutEvent) (s : State) : (emit e s).variant = s.variant := rfl
@[simp] theorem emit_lqr6 (e : OutEvent) (s : State) : (emit e s).lqr6 = s.lqr6 := rfl
@[simp] theorem emit_sticky (e : OutEvent) (s : State) : (emit e s).sticky = s.sticky := rfl
@[simp] theorem emit_result (e : OutEvent) (s : State) : (emit e s).result = s.result := rfl
@[simp] theorem emit_lhres (e : OutEvent) (s : State) : (emit e s).lhres = s.lhres := rfl
@[simp] theorem emit_ready (e : OutEvent) (s : State) : (emit e s).ready = s.ready := rfl
@[simp] theorem emit_notify (e : OutEvent) (s : State) : (emit e s).notify = s.notify := rfl
@[simp] theorem emit_missed (e : OutEvent) (s : State) : (emit e s).missed = s.missed := rfl
@[simp] theorem emit_rate (e : OutEvent) (s : State) : (emit e s).rate = s.rate := rfl
@[simp] theorem emit_iters (e : OutEvent) (s : State) : (emit e s).iters = s.iters := rfl
@[simp] theorem emit_d (e : OutEvent) (s : State) : (emit e s).d = s.d := rfl
@[simp] theorem emit_err (e : OutEvent) (s : State) : (emit e s).err = s.err := rfl
@[simp] theorem emit_ff (e : OutEvent) (s : State) : (emit e s).ff = s.ff := rfl
@[simp] theorem emit_u (e : OutEvent) (s : State) : (emit e s).u = s.u := rfl
@[simp] theorem emit_usf (e : OutEvent) (s : State) : (emit e s).usf = s.usf := rfl
@[simp] theorem emit_sv (e : OutEvent) (s : State) : (emit e s).sv = s.sv := rfl
@[simp] theorem emit_k9 (e : OutEvent) (s : State) : (emit e s).k9 = s.k9 := rfl
@[simp] theorem emit_k6 (e : OutEvent) (s : State) : (emit e s).k6 = s.k6 := rfl
@[simp] theorem emit_paybuf (e : OutEvent) (s : State) : (emit e s).paybuf = s.paybuf := rfl
@[simp] theorem emit_txbuf (e : OutEvent) (s : State) : (emit e s).txbuf = s.txbuf := rfl
@[simp] theorem emit_rxbuf (e : OutEvent) (s : State) : (emit e s).rxbuf = s.rxbuf := rfl
@[simp] theorem emit_respbuf (e : OutEvent) (s : State) : (emit e s).respbuf = s.respbuf := rfl
@[simp] theorem emit_events (e : OutEvent) (s : State) : (emit e s).events = s.events ++ [e] := rfl
@[simp] theorem emit_response (e : OutEvent) (s : State) : (emit e s).response = s.response := rfl
@[simp] theorem emit_inputs (e : OutEvent) (s : State) : (emit e s).inputs = s.inputs := rfl
@[simp] theorem emit_draws (e : OutEvent) (s : State) : (emit e s).draws = s.draws := rfl

@[simp] theorem writeD_variant (i : DReg) (v : Word) (s : State) : (writeD i v s).variant = s.variant := rfl
@[simp] theorem writeD_lqr6 (i : DReg) (v : Word) (s : State) : (writeD i v s).lqr6 = s.lqr6 := rfl
@[simp] theorem writeD_sticky (i : DReg) (v : Word) (s : State) : (writeD i v s).sticky = s.sticky := rfl
@[simp] theorem writeD_result (i : DReg) (v : Word) (s : State) : (writeD i v s).result = s.result := rfl
@[simp] theorem writeD_lhres (i : DReg) (v : Word) (s : State) : (writeD i v s).lhres = s.lhres := rfl
@[simp] theorem writeD_ready (i : DReg) (v : Word) (s : State) : (writeD i v s).ready = s.ready := rfl
@[simp] theorem writeD_notify (i : DReg) (v : Word) (s : State) : (writeD i v s).notify = s.notify := rfl
@[simp] theorem writeD_missed (i : DReg) (v : Word) (s : State) : (writeD i v s).missed = s.missed := rfl
@[simp] theorem writeD_rate (i : DReg) (v : Word) (s : State) : (writeD i v s).rate = s.rate := rfl
@[simp] theorem writeD_iters (i : DReg) (v : Word) (s : State) : (writeD i v s).iters = s.iters := rfl
@[simp] theorem writeD_d (i : DReg) (v : Word) (s : State) : (writeD i v s).d = s.d.set i v i.isLt := rfl
@[simp] theorem writeD_err (i : DReg) (v : Word) (s : State) : (writeD i v s).err = s.err := rfl
@[simp] theorem writeD_ff (i : DReg) (v : Word) (s : State) : (writeD i v s).ff = s.ff := rfl
@[simp] theorem writeD_u (i : DReg) (v : Word) (s : State) : (writeD i v s).u = s.u := rfl
@[simp] theorem writeD_usf (i : DReg) (v : Word) (s : State) : (writeD i v s).usf = s.usf := rfl
@[simp] theorem writeD_sv (i : DReg) (v : Word) (s : State) : (writeD i v s).sv = s.sv := rfl
@[simp] theorem writeD_k9 (i : DReg) (v : Word) (s : State) : (writeD i v s).k9 = s.k9 := rfl
@[simp] theorem writeD_k6 (i : DReg) (v : Word) (s : State) : (writeD i v s).k6 = s.k6 := rfl
@[simp] theorem writeD_paybuf (i : DReg) (v : Word) (s : State) : (writeD i v s).paybuf = s.paybuf := rfl
@[simp] theorem writeD_txbuf (i : DReg) (v : Word) (s : State) : (writeD i v s).txbuf = s.txbuf := rfl
@[simp] theorem writeD_rxbuf (i : DReg) (v : Word) (s : State) : (writeD i v s).rxbuf = s.rxbuf := rfl
@[simp] theorem writeD_respbuf (i : DReg) (v : Word) (s : State) : (writeD i v s).respbuf = s.respbuf := rfl
@[simp] theorem writeD_events (i : DReg) (v : Word) (s : State) : (writeD i v s).events = s.events := rfl
@[simp] theorem writeD_response (i : DReg) (v : Word) (s : State) : (writeD i v s).response = s.response := rfl
@[simp] theorem writeD_inputs (i : DReg) (v : Word) (s : State) : (writeD i v s).inputs = s.inputs := rfl
@[simp] theorem writeD_draws (i : DReg) (v : Word) (s : State) : (writeD i v s).draws = s.draws := rfl

@[simp] theorem noteRange_variant (r : Bool) (s : State) : (noteRange r s).variant = s.variant := by cases r <;> rfl
@[simp] theorem noteRange_lqr6 (r : Bool) (s : State) : (noteRange r s).lqr6 = s.lqr6 := by cases r <;> rfl
@[simp] theorem noteRange_sticky (r : Bool) (s : State) :
    (noteRange r s).sticky = if r then s.sticky ||| stickyMask .cmpRange else s.sticky := by
  cases r <;> rfl
@[simp] theorem noteRange_result (r : Bool) (s : State) : (noteRange r s).result = s.result := by cases r <;> rfl
@[simp] theorem noteRange_lhres (r : Bool) (s : State) : (noteRange r s).lhres = s.lhres := by cases r <;> rfl
@[simp] theorem noteRange_ready (r : Bool) (s : State) : (noteRange r s).ready = s.ready := by cases r <;> rfl
@[simp] theorem noteRange_notify (r : Bool) (s : State) : (noteRange r s).notify = s.notify := by cases r <;> rfl
@[simp] theorem noteRange_missed (r : Bool) (s : State) : (noteRange r s).missed = s.missed := by cases r <;> rfl
@[simp] theorem noteRange_rate (r : Bool) (s : State) : (noteRange r s).rate = s.rate := by cases r <;> rfl
@[simp] theorem noteRange_iters (r : Bool) (s : State) : (noteRange r s).iters = s.iters := by cases r <;> rfl
@[simp] theorem noteRange_d (r : Bool) (s : State) : (noteRange r s).d = s.d := by cases r <;> rfl
@[simp] theorem noteRange_err (r : Bool) (s : State) : (noteRange r s).err = s.err := by cases r <;> rfl
@[simp] theorem noteRange_ff (r : Bool) (s : State) : (noteRange r s).ff = s.ff := by cases r <;> rfl
@[simp] theorem noteRange_u (r : Bool) (s : State) : (noteRange r s).u = s.u := by cases r <;> rfl
@[simp] theorem noteRange_usf (r : Bool) (s : State) : (noteRange r s).usf = s.usf := by cases r <;> rfl
@[simp] theorem noteRange_sv (r : Bool) (s : State) : (noteRange r s).sv = s.sv := by cases r <;> rfl
@[simp] theorem noteRange_k9 (r : Bool) (s : State) : (noteRange r s).k9 = s.k9 := by cases r <;> rfl
@[simp] theorem noteRange_k6 (r : Bool) (s : State) : (noteRange r s).k6 = s.k6 := by cases r <;> rfl
@[simp] theorem noteRange_paybuf (r : Bool) (s : State) : (noteRange r s).paybuf = s.paybuf := by cases r <;> rfl
@[simp] theorem noteRange_txbuf (r : Bool) (s : State) : (noteRange r s).txbuf = s.txbuf := by cases r <;> rfl
@[simp] theorem noteRange_rxbuf (r : Bool) (s : State) : (noteRange r s).rxbuf = s.rxbuf := by cases r <;> rfl
@[simp] theorem noteRange_respbuf (r : Bool) (s : State) : (noteRange r s).respbuf = s.respbuf := by cases r <;> rfl
@[simp] theorem noteRange_events (r : Bool) (s : State) : (noteRange r s).events = s.events := by cases r <;> rfl
@[simp] theorem noteRange_response (r : Bool) (s : State) : (noteRange r s).response = s.response := by cases r <;> rfl
@[simp] theorem noteRange_inputs (r : Bool) (s : State) : (noteRange r s).inputs = s.inputs := by cases r <;> rfl
@[simp] theorem noteRange_draws (r : Bool) (s : State) : (noteRange r s).draws = s.draws := by cases r <;> rfl

/-- A gain write changes one of the two matrices and nothing else. -/
theorem writeGain_frame (bank : Bank) (i : Fin 4) (j : Nat) (v : Word) (s : State) :
    writeGain bank i j v s =
      { s with k9 := (writeGain bank i j v s).k9, k6 := (writeGain bank i j v s).k6 } := by
  cases bank <;> rfl

@[simp] theorem writeGain_k9_k6 (i : Fin 4) (j : Nat) (v : Word) (s : State) :
    (writeGain .k9 i j v s).k6 = s.k6 := rfl

@[simp] theorem writeGain_k6_k9 (i : Fin 4) (j : Nat) (v : Word) (s : State) :
    (writeGain .k6 i j v s).k9 = s.k9 := rfl

/-- A read of D after a write to it gives the value for that register and the old one for every other. -/
theorem readD_writeD (i k : DReg) (v : Word) (s : State) :
    readD (writeD i v s) k = if i = k then v else readD s k := by
  simp [readD, writeD, Vector.getElem_set, Fin.ext_iff]

end Sys2Proof.Machine
end

