-- ==== Sys2Proof/Laws/Buffers.lean ====
section
/-! SUPPORT. The byte buffers: a read after a write, the lengths every operation keeps, fields and bus words. -/

namespace Sys2Proof.Machine

@[simp] theorem length_setByte (buf : List Byte) (k : Nat) (b : Byte) : (setByte buf k b).length = buf.length := by
  simp [setByte]

@[simp] theorem length_clearBytes (buf : List Byte) : (clearBytes buf).length = buf.length := by
  simp [clearBytes]

@[simp] theorem length_putLe16 (buf : List Byte) (off : Nat) (h : Half) :
    (putLe16 buf off h).length = buf.length := by
  simp [putLe16]

@[simp] theorem length_setBufferWord (buf : List Byte) (w : Nat) (v : Word) :
    (setBufferWord buf w v).length = buf.length := by
  simp [setBufferWord]

/-- Past the end every byte reads 0x00 (R65). -/
theorem byteAt_past (buf : List Byte) (k : Nat) (h : buf.length ≤ k) : byteAt buf k = 0 := by
  simp [byteAt, List.getD_eq_getElem?_getD, List.getElem?_eq_none h]

/-- A read after a write: the byte written, if it lies in the buffer; every other byte as before. -/
theorem byteAt_setByte (buf : List Byte) (k n : Nat) (b : Byte) :
    byteAt (setByte buf k b) n = if k = n ∧ n < buf.length then b else byteAt buf n := by
  by_cases hk : k = n
  · subst hk
    by_cases hn : k < buf.length
    · simp [byteAt, setByte, hn]
    · simp [byteAt, setByte, hn]
  · simp [byteAt, setByte, hk]

@[simp] theorem byteAt_clearBytes (buf : List Byte) (k : Nat) : byteAt (clearBytes buf) k = 0 := by
  by_cases h : k < buf.length
  · simp [byteAt, clearBytes, h]
  · exact byteAt_past _ _ (by simpa using h)

/-- Two buffers of one length with the same bytes are one buffer. -/
theorem buffer_ext {a b : List Byte} (hl : a.length = b.length) (h : ∀ k, byteAt a k = byteAt b k) : a = b := by
  apply List.ext_getElem hl
  intro k ha hb
  simpa [byteAt, ha, hb] using h k

/-- The bytes of a buffer after a field is stored in it (R70). -/
theorem byteAt_putLe16 (buf : List Byte) (off n : Nat) (h : Half) (hl : off + 2 ≤ buf.length) :
    byteAt (putLe16 buf off h) n =
      if n = off then h.extractLsb' 0 8 else if n = off + 1 then h.extractLsb' 8 8 else byteAt buf n := by
  simp only [putLe16, byteAt_setByte, length_setByte]
  by_cases h1 : n = off
  · subst h1
    simp; omega
  · by_cases h2 : n = off + 1
    · subst h2
      simp; omega
    · rw [if_neg (by omega), if_neg (by omega), if_neg h1, if_neg h2]

/-- A half word is its two bytes. -/
theorem bytes_of_half (h : Half) : (h.extractLsb' 8 8 ++ h.extractLsb' 0 8 : BitVec 16) = h := by
  apply BitVec.eq_of_getLsbD_eq
  intro i hi
  simp only [BitVec.getLsbD_append, BitVec.getLsbD_extractLsb']
  by_cases h8 : i < 8
  · simp [h8]
  · simp only [h8, decide_false]
    have : i - 8 < 8 := by omega
    simp [this]
    congr 1; omega

/-- A field reads back as it was stored (R70). -/
theorem le16_putLe16 (buf : List Byte) (off : Nat) (h : Half) (hl : off + 2 ≤ buf.length) :
    le16 (putLe16 buf off h) off = h := by
  simp only [le16, byteAt_putLe16 _ _ _ _ hl]
  simpa using bytes_of_half h

/-- A field that does not overlap a stored one reads as before. -/
theorem le16_putLe16_apart (buf : List Byte) (off n : Nat) (h : Half) (hl : off + 2 ≤ buf.length)
    (hn : n + 2 ≤ off ∨ off + 2 ≤ n) : le16 (putLe16 buf off h) n = le16 buf n := by
  simp only [le16, byteAt_putLe16 _ _ _ _ hl]
  rw [if_neg (by omega), if_neg (by omega), if_neg (by omega), if_neg (by omega)]

end Sys2Proof.Machine
end

