-- ==== Sys2Proof/Laws/Bus.lean ====
section
/-! SUPPORT. The register map read backwards (20_memory.md rule R61): which offsets a register stands at. -/

namespace Sys2Proof.Machine

theorem orElse_eq_some {α : Type} (a b : Option α) (x : α) : (a <|> b) = some x ↔ a = some x ∨ (a = none ∧ b = some x) := by
  cases a <;> simp

theorem getD_eq_of_ne {α : Type} (a : Option α) (d x : α) (h : d ≠ x) : a.getD d = x ↔ a = some x := by
  cases a <;> simp [h]

theorem single_eq_some (base off : Nat) (r x : BusReg) : single base r off = some x ↔ off = base ∧ r = x := by
  unfold single; split <;> simp_all

/-- A slot of a row is inside the row, and its index is the word number. -/
theorem slot_eq_some {base n off : Nat} {i : Fin n} (h : slot base n off = some i) :
    base ≤ off ∧ off < base + 4 * n ∧ i.val = (off - base) / 4 := by
  unfold slot at h
  split at h
  · next hr => injection h with e; subst e; exact ⟨hr.1, hr.2, rfl⟩
  · cases h

/-- CMD stands at 0x00C and nowhere else. -/
theorem regAt_cmd (off : Nat) (h : regAt off = .cmd) : off = 0x00C := by
  unfold regAt at h
  rw [getD_eq_of_ne _ _ _ (by decide)] at h
  simp only [orElse_eq_some, single_eq_some, Option.map_eq_some_iff] at h
  simp [gain9Reg, gain6Reg] at h
  omega

/-- The offsets of the registers a bus write changes: MODE, STATUS, D, ERR, FF, U, SV and PAYBUF. -/
theorem regAt_writable (off : Nat) :
    (regAt off = .mode → off = 0x004) ∧ (regAt off = .status → off = 0x008) ∧
    (∀ i, regAt off = .d i → 0x040 ≤ off ∧ off < 0x080 ∧ i.val = (off - 0x040) / 4) ∧
    (∀ i, regAt off = .err i → 0x080 ≤ off ∧ off < 0x0A4 ∧ i.val = (off - 0x080) / 4) ∧
    (∀ i, regAt off = .ff i → 0x0B0 ≤ off ∧ off < 0x0C0 ∧ i.val = (off - 0x0B0) / 4) ∧
    (∀ i, regAt off = .u i → 0x0C0 ≤ off ∧ off < 0x0D0 ∧ i.val = (off - 0x0C0) / 4) ∧
    (∀ i, regAt off = .sv i → 0x100 ≤ off ∧ off < 0x124 ∧ i.val = (off - 0x100) / 4) ∧
    (∀ i, regAt off = .paybuf i → 0x400 ≤ off ∧ off < 0x414 ∧ i.val = (off - 0x400) / 4) := by
  unfold regAt
  refine ⟨?_, ?_, ?_, ?_, ?_, ?_, ?_, ?_⟩
  case refine_1 | refine_2 =>
    intro h
    rw [getD_eq_of_ne _ _ _ (by simp)] at h
    simp only [orElse_eq_some, single_eq_some, Option.map_eq_some_iff] at h
    simp [gain9Reg, gain6Reg] at h
    omega
  all_goals
    intro i h
    rw [getD_eq_of_ne _ _ _ (by simp)] at h
    simp only [orElse_eq_some, single_eq_some, Option.map_eq_some_iff] at h
    simp [gain9Reg, gain6Reg] at h
    have := slot_eq_some (by first | exact h.2 | exact h.2.2 | tauto)
    omega

/-- A word of PAYBUF after a bus write of it (R65). -/
theorem byteAt_setBufferWord (buf : List Byte) (w k : Nat) (v : Word) :
    byteAt (setBufferWord buf w v) k =
      if 4 * w ≤ k ∧ k < 4 * w + 4 ∧ k < buf.length then v.extractLsb' (8 * (k - 4 * w)) 8 else byteAt buf k := by
  simp only [setBufferWord, byteAt_setByte, length_setByte]
  by_cases hl : k < buf.length
  · by_cases h0 : k = 4 * w
    · subst h0; simp [hl]
    · by_cases h1 : k = 4 * w + 1
      · subst h1; simp [hl]
      · by_cases h2 : k = 4 * w + 2
        · subst h2; simp [hl]
        · by_cases h3 : k = 4 * w + 3
          · subst h3; simp [hl]
          · rw [if_neg (by omega), if_neg (by omega), if_neg (by omega), if_neg (by omega), if_neg (by omega)]
  · rw [if_neg (by omega), if_neg (by omega), if_neg (by omega), if_neg (by omega), if_neg (by omega)]

end Sys2Proof.Machine
end

