-- ==== Sys2Proof/Laws/Codec.lean ====
section
/-! SUPPORT. What pack and unpack can do (40_codec.md rules R126 to R129). -/

namespace Sys2Proof.Machine

@[simp] theorem length_framed (size : Nat) (payload tx : List Byte) : (framed size payload tx).length = tx.length := by
  simp [framed]

/-- The bytes of a framed packet (R126). -/
theorem byteAt_framed (size : Nat) (payload tx : List Byte) (k : Nat) (h : k < tx.length) :
    byteAt (framed size payload tx) k =
      if k = 0 then Config.header else if k ≤ size then byteAt payload (k - 1) else byteAt tx k := by
  simp [byteAt, framed, h]

/-- A pack succeeds with TXBUF framed, or is OVERSIZE. -/
theorem pack_cases (size : Nat) (s : State) :
    (size ≤ payloadLen s ∧ pack size s = some { s with txbuf := framed size s.paybuf s.txbuf }) ∨
      (payloadLen s < size ∧ pack size s = none) := by
  by_cases h : payloadLen s < size
  · exact .inr ⟨h, by simp [pack, h]⟩
  · exact .inl ⟨by omega, by simp [pack, h]⟩

/-- The state of an accepted unpack (R128). -/
def unpacked (s : State) : State :=
  { s with
    respbuf := s.respbuf.mapIdx fun k _ => byteAt s.rxbuf (k + 1)
    rxbuf := clearBytes s.rxbuf
    rate := s.rate + 1 }

/-- An unpack accepts exactly the healthy header (R127). -/
theorem unpack_cases (s : State) :
    (byteAt s.rxbuf 0 = Config.header ∧ unpack s = some (unpacked s)) ∨
      (byteAt s.rxbuf 0 ≠ Config.header ∧ unpack s = none) := by
  by_cases h : byteAt s.rxbuf 0 = Config.header
  · exact .inl ⟨h, by simp [unpack, unpacked, h]⟩
  · exact .inr ⟨h, by simp [unpack, h]⟩

/-- The destination bytes of an accepted unpack (R128). -/
theorem byteAt_unpacked (s : State) (k : Nat) (h : k < s.respbuf.length) :
    byteAt (unpacked s).respbuf k = byteAt s.rxbuf (k + 1) := by
  simp [byteAt, unpacked, h]

@[simp] theorem length_unpacked_respbuf (s : State) : (unpacked s).respbuf.length = s.respbuf.length := by
  simp [unpacked]

@[simp] theorem length_unpacked_rxbuf (s : State) : (unpacked s).rxbuf.length = s.rxbuf.length := by
  simp [unpacked]

end Sys2Proof.Machine
end

