-- ==== Sys2Proof/Laws/Float.lean ====
section
/-! SUPPORT. Patterns, magnitudes and the rounding of binary32 (00_scope.md rule R9). -/

namespace Sys2Proof.Machine

/-! ## The fields of a pattern -/

theorem fpSign_pattern (neg : Bool) (bits : Nat) : fpSign (fpPattern neg bits) = neg := by
  simp only [fpSign, fpPattern, BitVec.getLsbD_append]
  cases neg <;> rfl

theorem toNat_pattern (neg : Bool) (bits : Nat) (h : bits < 2 ^ 31) :
    (fpPattern neg bits).toNat = neg.toNat * 2 ^ 31 + bits := by
  rw [fpPattern, BitVec.toNat_append, BitVec.toNat_ofNat, BitVec.toNat_ofBool, Nat.mod_eq_of_lt h,
    ← Nat.shiftLeft_add_eq_or_of_lt h, Nat.shiftLeft_eq]

theorem fpExp_toNat (w : Word) : fpExp w = w.toNat / 2 ^ 23 % 2 ^ 8 := by
  rw [fpExp, BitVec.extractLsb'_toNat, Nat.shiftRight_eq_div_pow]

theorem fpFrac_toNat (w : Word) : fpFrac w = w.toNat % 2 ^ 23 := by
  rw [fpFrac, BitVec.extractLsb'_toNat, Nat.shiftRight_zero]

theorem fpSign_toNat (w : Word) : fpSign w = decide (2 ^ 31 ≤ w.toNat) := by
  have hw := w.isLt
  rw [fpSign, BitVec.getLsbD, Nat.testBit_eq_decide_div_mod_eq]
  apply decide_eq_decide.mpr
  omega

theorem fpExp_pattern (neg : Bool) (bits : Nat) (h : bits < 2 ^ 31) : fpExp (fpPattern neg bits) = bits / 2 ^ 23 := by
  rw [fpExp_toNat, toNat_pattern _ _ h]
  cases neg <;> simp only [Bool.toNat_false, Bool.toNat_true] <;> omega

theorem fpFrac_pattern (neg : Bool) (bits : Nat) (h : bits < 2 ^ 31) : fpFrac (fpPattern neg bits) = bits % 2 ^ 23 := by
  rw [fpFrac_toNat, toNat_pattern _ _ h]
  cases neg <;> simp only [Bool.toNat_false, Bool.toNat_true] <;> omega

theorem fpExp_lt (w : Word) : fpExp w < 256 := by
  simpa [fpExp] using (w.extractLsb' 23 8).isLt

theorem fpFrac_lt (w : Word) : fpFrac w < 2 ^ 23 := by
  simpa [fpFrac] using (w.extractLsb' 0 23).isLt

/-- The magnitude of the pattern bits [30:0], in units of 2^-149. -/
def magOfBits (bits : Nat) : Nat :=
  if bits / 2 ^ 23 = 0 then bits % 2 ^ 23 else (2 ^ 23 + bits % 2 ^ 23) * 2 ^ (bits / 2 ^ 23 - 1)

theorem fpMag_pattern (neg : Bool) (bits : Nat) (h : bits < 2 ^ 31) : fpMag (fpPattern neg bits) = magOfBits bits := by
  simp only [fpMag, magOfBits, fpExp_pattern _ _ h, fpFrac_pattern _ _ h]

/-- A pattern is its sign and its two fields. -/
theorem pattern_of_fields (w : Word) : fpPattern (fpSign w) (fpExp w * 2 ^ 23 + fpFrac w) = w := by
  apply BitVec.eq_of_toNat_eq
  have he := fpExp_lt w
  have hf := fpFrac_lt w
  have hw := w.isLt
  rw [toNat_pattern _ _ (by omega), fpSign_toNat, fpExp_toNat, fpFrac_toNat]
  by_cases h : 2 ^ 31 ≤ w.toNat
  · rw [decide_eq_true h, Bool.toNat_true]; omega
  · rw [decide_eq_false h, Bool.toNat_false]; omega

/-! ## Negation -/

@[simp] theorem fpSign_fpNeg (w : Word) : fpSign (fpNeg w) = !fpSign w := by simp [fpSign, fpNeg]

@[simp] theorem fpExp_fpNeg (w : Word) : fpExp (fpNeg w) = fpExp w := by
  unfold fpExp fpNeg
  congr 1
  ext i hi
  simp
  interval_cases i <;> simp

@[simp] theorem fpFrac_fpNeg (w : Word) : fpFrac (fpNeg w) = fpFrac w := by
  unfold fpFrac fpNeg
  congr 1
  ext i hi
  simp
  interval_cases i <;> simp

@[simp] theorem fpMag_fpNeg (w : Word) : fpMag (fpNeg w) = fpMag w := by simp [fpMag]

/-- Negation is exact (R221). -/
@[simp] theorem fpScaled_fpNeg (w : Word) : fpScaled (fpNeg w) = -fpScaled w := by
  simp only [fpScaled, fpSign_fpNeg, fpMag_fpNeg]
  cases fpSign w <;> simp

/-! ## Rounding to an integer -/

/-- The nearest integer is at most half a unit away. -/
theorem roundNearestEven_close (num den : Nat) (hd : 0 < den) :
    2 * num ≤ 2 * den * roundNearestEven num den + den ∧ 2 * den * roundNearestEven num den ≤ 2 * num + den := by
  have h := Nat.div_add_mod num den
  have hlt := Nat.mod_lt num hd
  have hs : den * (num / den + 1) = den * (num / den) + den := by ring
  unfold roundNearestEven
  split
  · next hc => rw [Nat.mul_assoc, hs]; omega
  · next hc => rw [Nat.mul_assoc]; omega

/-- At exactly half a unit the integer chosen is even. -/
theorem roundNearestEven_tie (num den : Nat) (hd : 0 < den)
    (h : 2 * num = 2 * den * roundNearestEven num den + den ∨ 2 * den * roundNearestEven num den = 2 * num + den) :
    roundNearestEven num den % 2 = 0 := by
  have hdm := Nat.div_add_mod num den
  have hlt := Nat.mod_lt num hd
  have hs : den * (num / den + 1) = den * (num / den) + den := by ring
  unfold roundNearestEven at h ⊢
  split at h
  · next hc =>
    rw [Nat.mul_assoc, hs] at h
    rw [if_pos hc]
    rcases hc with hc | hc <;> omega
  · next hc =>
    rw [Nat.mul_assoc] at h
    rw [if_neg hc]
    omega

theorem roundNearestEven_bounds (num den : Nat) :
    num / den ≤ roundNearestEven num den ∧ roundNearestEven num den ≤ num / den + 1 := by
  unfold roundNearestEven
  split <;> omega

/-- A larger quotient rounds no lower. -/
theorem roundNearestEven_mono {a b c d : Nat} (hb : 0 < b) (hd : 0 < d) (h : a * d ≤ c * b) :
    roundNearestEven a b ≤ roundNearestEven c d := by
  have hq : a / b ≤ c / d := by
    rw [Nat.le_div_iff_mul_le hd]
    have h1 : a / b * b ≤ a := Nat.div_mul_le_self a b
    have h2 : a / b * d * b ≤ c * b := by
      calc a / b * d * b = a / b * b * d := by ring
        _ ≤ a * d := Nat.mul_le_mul_right d h1
        _ ≤ c * b := h
    exact Nat.le_of_mul_le_mul_right h2 hb
  have b1 := roundNearestEven_bounds a b
  have b2 := roundNearestEven_bounds c d
  rcases Nat.lt_or_eq_of_le hq with hlt | heq
  · omega
  · have ha := Nat.div_add_mod a b
    have hc := Nat.div_add_mod c d
    have hr : (a % b) * d ≤ (c % d) * b := by
      have e1 : a * d = b * (a / b) * d + (a % b) * d := by rw [← Nat.add_mul, ha]
      have e2 : c * b = d * (c / d) * b + (c % d) * b := by rw [← Nat.add_mul, hc]
      have e3 : b * (a / b) * d = d * (c / d) * b := by rw [heq]; ring
      omega
    have hcond : b < 2 * (a % b) ∨ (2 * (a % b) = b ∧ (a / b) % 2 = 1) →
        d < 2 * (c % d) ∨ (2 * (c % d) = d ∧ (c / d) % 2 = 1) := by
      rintro (hlt | ⟨he, ho⟩)
      · left
        have h1 : b * d < 2 * (c % d) * b := by
          calc b * d < 2 * (a % b) * d := Nat.mul_lt_mul_of_pos_right hlt hd
            _ = 2 * ((a % b) * d) := by ring
            _ ≤ 2 * ((c % d) * b) := by omega
            _ = 2 * (c % d) * b := by ring
        rw [Nat.mul_comm b d] at h1
        exact Nat.lt_of_mul_lt_mul_right h1
      · have h1 : d * b ≤ 2 * (c % d) * b := by
          calc d * b = 2 * (a % b) * d := by rw [he]; ring
            _ = 2 * ((a % b) * d) := by ring
            _ ≤ 2 * ((c % d) * b) := by omega
            _ = 2 * (c % d) * b := by ring
        have h2 := Nat.le_of_mul_le_mul_right h1 hb
        rcases Nat.lt_or_eq_of_le h2 with h3 | h3
        · exact .inl h3
        · exact .inr ⟨h3.symm, by rw [← heq]; exact ho⟩
    unfold roundNearestEven
    split
    · next hc1 => rw [if_pos (hcond hc1), heq]
    · split <;> omega

/-! ## Rounding to a binary32 magnitude -/

/-- The integer significand, in units of 2^(shift - 149), a rounding has before overflow. -/
def roundSig (num den : Nat) : Nat := roundNearestEven num (den * 2 ^ fpShift (num / den))

theorem roundMag_eq (num den : Nat) :
    roundMag num den = min (fpShift (num / den) * 2 ^ 23 + roundSig num den) 0x7F800000 := rfl

theorem roundMag_le (num den : Nat) : roundMag num den ≤ 0x7F800000 := Nat.min_le_right _ _

/-- The shift puts the units below 2^24, and a shifted value at or above 2^23. -/
theorem fpShift_spec (q : Nat) :
    q < 2 ^ 24 * 2 ^ fpShift q ∧ (fpShift q = 0 ∨ 2 ^ 23 * 2 ^ fpShift q ≤ q) := by
  unfold fpShift
  split
  · exact ⟨by omega, .inl rfl⟩
  · next h =>
    have hq : q ≠ 0 := by omega
    have h1 := (Nat.le_log2 hq (k := 24)).mpr (by omega)
    have h2 : 2 ^ q.log2 ≤ q := Nat.log2_self_le hq
    have h3 : q < 2 ^ (q.log2 + 1) := Nat.lt_log2_self
    constructor
    · rw [← Nat.pow_add]
      calc q < 2 ^ (q.log2 + 1) := h3
        _ = 2 ^ (24 + (q.log2 - 23)) := by congr 1; omega
    · right
      rw [← Nat.pow_add]
      calc 2 ^ (23 + (q.log2 - 23)) = 2 ^ q.log2 := by congr 1; omega
        _ ≤ q := h2

theorem fpShift_mono {a b : Nat} (h : a ≤ b) : fpShift a ≤ fpShift b := by
  by_contra hlt
  have ha := (fpShift_spec a).2
  have hb := (fpShift_spec b).1
  rcases ha with h0 | ha
  · omega
  · have : 2 ^ 24 * 2 ^ fpShift b ≤ 2 ^ 23 * 2 ^ fpShift a := by
      calc 2 ^ 24 * 2 ^ fpShift b = 2 ^ 23 * 2 ^ (fpShift b + 1) := by ring
        _ ≤ 2 ^ 23 * 2 ^ fpShift a := Nat.mul_le_mul_left _ (Nat.pow_le_pow_right (by omega) (by omega))
    omega

/-- The significand of a rounding: at most 2^24, and at least 2^23 once bits are shifted out. -/
theorem roundSig_range (num den : Nat) :
    roundSig num den ≤ 2 ^ 24 ∧ (fpShift (num / den) = 0 ∨ 2 ^ 23 ≤ roundSig num den) := by
  have hs := fpShift_spec (num / den)
  have hb := roundNearestEven_bounds num (den * 2 ^ fpShift (num / den))
  have hpos : 0 < 2 ^ fpShift (num / den) := Nat.two_pow_pos _
  have hq : num / (den * 2 ^ fpShift (num / den)) = num / den / 2 ^ fpShift (num / den) := Nat.div_div_eq_div_mul _ _ _ |>.symm
  unfold roundSig
  rw [hq] at hb
  constructor
  · have : num / den / 2 ^ fpShift (num / den) < 2 ^ 24 := (Nat.div_lt_iff_lt_mul hpos).mpr hs.1
    omega
  · rcases hs.2 with h0 | h0
    · exact .inl h0
    · right
      have : 2 ^ 23 ≤ num / den / 2 ^ fpShift (num / den) := (Nat.le_div_iff_mul_le hpos).mpr h0
      omega

/-- The magnitude of a rounding's bits is the significand shifted. -/
theorem magOfBits_round (sh m : Nat) (hm : m ≤ 2 ^ 24) (hs : sh = 0 ∨ 2 ^ 23 ≤ m) :
    magOfBits (sh * 2 ^ 23 + m) = m * 2 ^ sh := by
  unfold magOfBits
  rcases Nat.lt_or_ge m (2 ^ 23) with h1 | h1
  · have h0 : sh = 0 := by omega
    subst h0
    rw [if_pos (by omega)]
    simp; omega
  · rcases Nat.lt_or_ge m (2 ^ 24) with h2 | h2
    · have e1 : (sh * 2 ^ 23 + m) / 2 ^ 23 = sh + 1 := by omega
      have e2 : (sh * 2 ^ 23 + m) % 2 ^ 23 = m - 2 ^ 23 := by omega
      rw [e1, e2, if_neg (by omega), show 2 ^ 23 + (m - 2 ^ 23) = m by omega, Nat.add_sub_cancel]
    · have e0 : m = 2 ^ 24 := by omega
      subst e0
      have e1 : (sh * 2 ^ 23 + 2 ^ 24) / 2 ^ 23 = sh + 2 := by omega
      have e2 : (sh * 2 ^ 23 + 2 ^ 24) % 2 ^ 23 = 0 := by omega
      rw [e1, e2, if_neg (by omega)]
      calc (2 ^ 23 + 0) * 2 ^ (sh + 2 - 1) = 2 ^ 23 * (2 ^ sh * 2) := by
            rw [show sh + 2 - 1 = sh + 1 by omega, Nat.pow_succ 2 sh, Nat.add_zero]
        _ = 2 ^ 24 * 2 ^ sh := by omega

/-- A larger quotient rounds to no lower a pattern. -/
theorem roundMag_mono {a b c d : Nat} (hb : 0 < b) (hd : 0 < d) (h : a * d ≤ c * b) :
    roundMag a b ≤ roundMag c d := by
  have hq : a / b ≤ c / d := by
    rw [Nat.le_div_iff_mul_le hd]
    have h1 : a / b * d * b ≤ c * b := by
      calc a / b * d * b = a / b * b * d := by ring
        _ ≤ a * d := Nat.mul_le_mul_right d (Nat.div_mul_le_self a b)
        _ ≤ c * b := h
    exact Nat.le_of_mul_le_mul_right h1 hb
  have hsh := fpShift_mono hq
  have r1 := roundSig_range a b
  have r2 := roundSig_range c d
  rw [roundMag_eq, roundMag_eq]
  have key : fpShift (a / b) * 2 ^ 23 + roundSig a b ≤ fpShift (c / d) * 2 ^ 23 + roundSig c d := by
    rcases Nat.lt_or_eq_of_le hsh with hlt | heq
    · omega
    · have : roundSig a b ≤ roundSig c d := by
        unfold roundSig
        rw [heq]
        apply roundNearestEven_mono
        · exact Nat.mul_pos hb (Nat.two_pow_pos _)
        · exact Nat.mul_pos hd (Nat.two_pow_pos _)
        · calc a * (d * 2 ^ fpShift (c / d)) = a * d * 2 ^ fpShift (c / d) := by ring
            _ ≤ c * b * 2 ^ fpShift (c / d) := Nat.mul_le_mul_right _ h
            _ = c * (b * 2 ^ fpShift (c / d)) := by ring
      omega
  exact min_le_min_right _ key

/-- The pattern of a rounding is never a NaN. -/
theorem not_isNaN_round (neg : Bool) (num den : Nat) : ¬ fpIsNaN (fpPattern neg (roundMag num den)) := by
  have h := roundMag_le num den
  rintro ⟨he, hf⟩
  rw [fpExp_pattern _ _ (by omega)] at he
  rw [fpFrac_pattern _ _ (by omega)] at hf
  omega

/-- Rounding the magnitude of a finite pattern gives its own bits: representable values are kept. -/
theorem roundMag_fpMag (w : Word) (h : fpIsFinite w) : roundMag (fpMag w) 1 = fpExp w * 2 ^ 23 + fpFrac w := by
  have hE := fpExp_lt w
  have hF := fpFrac_lt w
  have hfin : fpExp w ≠ 255 := h
  have hbits : fpExp w * 2 ^ 23 + fpFrac w < 0x7F800000 := by omega
  rw [roundMag_eq, roundSig, Nat.div_one, Nat.one_mul]
  by_cases h0 : fpExp w = 0
  · have hm : fpMag w = fpFrac w := by simp [fpMag, h0]
    have hs : fpShift (fpMag w) = 0 := by simp [fpShift, hm]; omega
    rw [hs, hm, h0]
    have : roundNearestEven (fpFrac w) (2 ^ 0) = fpFrac w := by
      have := roundNearestEven_close (fpFrac w) 1 (by omega)
      simp; omega
    rw [this]; omega
  · have hm : fpMag w = (2 ^ 23 + fpFrac w) * 2 ^ (fpExp w - 1) := by simp [fpMag, h0]
    have hpos : 0 < 2 ^ (fpExp w - 1) := Nat.two_pow_pos _
    have hs : fpShift (fpMag w) = fpExp w - 1 := by
      have s := fpShift_spec (fpMag w)
      apply Nat.le_antisymm
      · by_contra hc
        rcases s.2 with s0 | s0
        · omega
        · rw [hm] at s0
          have : 2 ^ 24 * 2 ^ (fpExp w - 1) ≤ 2 ^ 23 * 2 ^ fpShift (fpMag w) := by
            calc 2 ^ 24 * 2 ^ (fpExp w - 1) = 2 ^ 23 * 2 ^ (fpExp w - 1 + 1) := by ring
              _ ≤ _ := Nat.mul_le_mul_left _ (Nat.pow_le_pow_right (by omega) (by omega))
          have h2 : (2 ^ 23 + fpFrac w) * 2 ^ (fpExp w - 1) < 2 ^ 24 * 2 ^ (fpExp w - 1) :=
            Nat.mul_lt_mul_of_pos_right (by omega) hpos
          rw [hm] at this
          omega
      · by_contra hc
        have : 2 ^ 24 * 2 ^ fpShift (fpMag w) ≤ 2 ^ 23 * 2 ^ (fpExp w - 1) := by
          calc 2 ^ 24 * 2 ^ fpShift (fpMag w) = 2 ^ 23 * 2 ^ (fpShift (fpMag w) + 1) := by ring
            _ ≤ _ := Nat.mul_le_mul_left _ (Nat.pow_le_pow_right (by omega) (by omega))
        have h2 : 2 ^ 23 * 2 ^ (fpExp w - 1) ≤ fpMag w := by
          rw [hm]; exact Nat.mul_le_mul_right _ (by omega)
        omega
    have hr : roundNearestEven (fpMag w) (2 ^ (fpExp w - 1)) = 2 ^ 23 + fpFrac w := by
      unfold roundNearestEven
      rw [hm, Nat.mul_mod_left, Nat.mul_div_cancel _ hpos, if_neg (by omega)]
    rw [hs, hr]
    omega

/-! ## The drawn NaN -/

/-- A drawn NaN's bits: a free sign, the exponent and the quiet bit all ones, a free payload (NAN_RESULT, R6, R225). -/
theorem toNat_drawnNaN (n : Nat) :
    (drawnNaN n).toNat =
      ((Config.nanDraw n).getLsbD 22).toNat * 2 ^ 31 + (0x1FF * 2 ^ 22 + (Config.nanDraw n).toNat % 2 ^ 22) := by
  have h : (Config.nanDraw n).toNat % 2 ^ 22 < 2 ^ 22 := Nat.mod_lt _ (Nat.two_pow_pos _)
  have h' : 0x1FF * 2 ^ 22 + (Config.nanDraw n).toNat % 2 ^ 22 < 2 ^ 31 := by omega
  have e : (0x1FF#9 ++ (Config.nanDraw n).setWidth 22).toNat = 0x1FF * 2 ^ 22 + (Config.nanDraw n).toNat % 2 ^ 22 := by
    rw [BitVec.toNat_append, BitVec.toNat_setWidth, ← Nat.shiftLeft_add_eq_or_of_lt h, Nat.shiftLeft_eq]
    rfl
  rw [drawnNaN, BitVec.toNat_append, e, BitVec.toNat_ofBool, ← Nat.shiftLeft_add_eq_or_of_lt h', Nat.shiftLeft_eq]

/-- Every drawn NaN is a NaN, and a quiet one, whatever its free bits. -/
theorem fpIsQuietNaN_drawnNaN (n : Nat) : fpIsNaN (drawnNaN n) ∧ fpIsQuietNaN (drawnNaN n) := by
  have h : (Config.nanDraw n).toNat % 2 ^ 22 < 2 ^ 22 := Nat.mod_lt _ (Nat.two_pow_pos _)
  have hb := Bool.toNat_lt ((Config.nanDraw n).getLsbD 22)
  have he : fpExp (drawnNaN n) = 255 := by rw [fpExp_toNat, toNat_drawnNaN]; omega
  refine ⟨⟨he, ?_⟩, he, ?_⟩
  · rw [fpFrac_toNat, toNat_drawnNaN]; omega
  · rw [BitVec.getLsbD, toNat_drawnNaN, Nat.testBit_eq_decide_div_mod_eq]
    exact decide_eq_true (by omega)

end Sys2Proof.Machine
end

