-- ==== Sys2Proof/Laws/PerInstr.lean ====
section
/-! SUPPORT. The per-instruction family EncodesRow: the word the assembler's table gives a well-formed command is of that
command's row of the opcode map (30_encoding.md rules R95, R96, R99). -/

namespace Sys2Proof.Laws.EncodesRow

/-- The word of a well-formed command matches the row of its opcode. -/
def Statement (i : Instr) : Prop := i.WellFormed → rowMatches (opcodeOf i) (encode i)

theorem nop : Statement .nop := by intro _; decide

theorem cmp (rd rs : DReg) : Statement (.cmp rd rs) := by
  intro _
  have h : ∀ rd rs : DReg, rowMatches .cmp (encode (.cmp rd rs)) := by decide
  exact h rd rs

theorem exp (rd rs : DReg) : Statement (.exp rd rs) := by
  intro _
  have h : ∀ rd rs : DReg, rowMatches .exp (encode (.exp rd rs)) := by decide
  exact h rd rs

theorem cmpst (off : Nat) (rs : DReg) : Statement (.cmpst off rs) := by
  intro hw
  have h : ∀ (off : Fin 32) (rs : DReg), rowMatches .cmpst (encode (.cmpst off rs)) := by decide
  exact h ⟨off, Nat.lt_succ_of_le hw⟩ rs

theorem ldexp (rd : DReg) (off : Nat) : Statement (.ldexp rd off) := by
  intro hw
  have h : ∀ (rd : DReg) (off : Fin 32), rowMatches .ldexp (encode (.ldexp rd off)) := by decide
  exact h rd ⟨off, Nat.lt_succ_of_le hw⟩

theorem pack (size : Nat) : Statement (.pack size) := by
  intro hw
  have h : ∀ hi lo : Fin 16, rowMatches .pack (encode (.pack (16 * hi + lo))) := by decide
  have hw' : size ≤ 255 := hw
  change rowMatches .pack (encode (.pack size))
  simpa [Nat.div_add_mod] using h ⟨size / 16, by omega⟩ ⟨size % 16, by omega⟩

theorem unpack : Statement .unpack := by intro _; decide

theorem clrpay : Statement .clrpay := by intro _; decide

theorem matvec : Statement .matvec := by intro _; decide

theorem setk (bank : Bank) (i : Fin 4) (j : Nat) (rs : DReg) : Statement (.setk bank i j rs) := by
  intro hw
  have h9 : ∀ (i : Fin 4) (j rs : Fin 16), rowMatches .setk (encode (.setk .k9 i j rs)) := by decide
  have h6 : ∀ (i : Fin 4) (j rs : Fin 16), rowMatches .setk (encode (.setk .k6 i j rs)) := by decide
  cases bank
  · exact h9 i ⟨j, Nat.lt_succ_of_le hw⟩ rs
  · exact h6 i ⟨j, Nat.lt_succ_of_le hw⟩ rs

theorem setmode (lqr6 : Bool) : Statement (.setmode lqr6) := by intro _; cases lqr6 <;> decide

theorem sfcycle : Statement .sfcycle := by intro _; decide

end Sys2Proof.Laws.EncodesRow
end

