-- ==== Sys2Proof/Laws/Rounding.lean ====
section
/-! SUPPORT. The rounding to binary32 is the correct one (00_scope.md rule R9): what `roundMag` gives, said once. -/

namespace Sys2Proof.Machine

/-- From half a unit in the last place above the largest finite value on, a rounding is the infinity. -/
theorem roundMag_overflow (num den : Nat) (h : (2 ^ 25 - 1) * 2 ^ 252 * den ≤ num) (hd : 0 < den) :
    roundMag num den = 0x7F800000 := by
  have h1 : roundMag ((2 ^ 25 - 1) * 2 ^ 252) 1 ≤ roundMag num den :=
    roundMag_mono (by omega) hd (by rw [Nat.mul_one]; exact h)
  have h2 : roundMag ((2 ^ 25 - 1) * 2 ^ 252) 1 = 0x7F800000 := by decide +kernel
  have := roundMag_le num den
  omega

/-- Below that point a rounding stays below the infinity. -/
theorem roundRaw_lt (num den : Nat) (hd : 0 < den) (h : num < (2 ^ 25 - 1) * 2 ^ 252 * den) :
    fpShift (num / den) * 2 ^ 23 + roundSig num den < 0x7F800000 := by
  have hr := roundSig_range num den
  have hq : num / den ≤ (2 ^ 25 - 1) * 2 ^ 252 - 1 := by
    have : num / den < (2 ^ 25 - 1) * 2 ^ 252 := (Nat.div_lt_iff_lt_mul hd).mpr h
    omega
  have hs : fpShift (num / den) ≤ 253 :=
    (fpShift_mono hq).trans (by decide +kernel)
  rcases Nat.lt_or_eq_of_le hs with hlt | heq
  · omega
  · have hc := (roundNearestEven_close num (den * 2 ^ fpShift (num / den)) (Nat.mul_pos hd (Nat.two_pow_pos _))).2
    change 2 * (den * 2 ^ fpShift (num / den)) * roundSig num den ≤ 2 * num + den * 2 ^ fpShift (num / den) at hc
    rw [heq] at hc ⊢
    have : roundSig num den < 2 ^ 24 := by
      by_contra hge
      have : 2 * (den * 2 ^ 253) * 2 ^ 24 ≤ 2 * (den * 2 ^ 253) * roundSig num den :=
        Nat.mul_le_mul_left _ (by omega)
      omega
    omega

/-- Every finite magnitude is a whole number of steps of 2^sh, or lies below the first binade with that step. -/
theorem fpMag_grid (v : Word) (sh : Nat) : (∃ k, fpMag v = k * 2 ^ sh) ∨ (0 < sh ∧ fpMag v < 2 ^ 23 * 2 ^ sh) := by
  have hf := fpFrac_lt v
  rcases Nat.eq_zero_or_pos sh with rfl | hpos
  · exact .inl ⟨_, (Nat.mul_one _).symm⟩
  · unfold fpMag
    split
    · exact .inr ⟨hpos, lt_of_lt_of_le hf (Nat.le_mul_of_pos_right _ (Nat.two_pow_pos _))⟩
    · rcases Nat.lt_or_ge (fpExp v - 1) sh with hlt | hge
      · refine .inr ⟨hpos, ?_⟩
        calc (2 ^ 23 + fpFrac v) * 2 ^ (fpExp v - 1) < 2 ^ 24 * 2 ^ (fpExp v - 1) :=
              Nat.mul_lt_mul_of_pos_right (by omega) (Nat.two_pow_pos _)
          _ = 2 ^ 23 * 2 ^ (fpExp v - 1 + 1) := by ring
          _ ≤ 2 ^ 23 * 2 ^ sh := Nat.mul_le_mul_left _ (Nat.pow_le_pow_right (by omega) hlt)
      · refine .inl ⟨(2 ^ 23 + fpFrac v) * 2 ^ (fpExp v - 1 - sh), ?_⟩
        rw [Nat.mul_assoc, ← Nat.pow_add, Nat.sub_add_cancel hge]

/-- The multiple m of D nearest to x is no farther than any other, and only a multiple half a step away is as near. -/
theorem nearest_multiple {x D m : Nat} (h1 : 2 * x ≤ 2 * D * m + D) (h2 : 2 * D * m ≤ 2 * x + D) (k : Nat) :
    ((x : Int) - (D * m : Nat)).natAbs ≤ ((x : Int) - (D * k : Nat)).natAbs ∧
    (k ≠ m → ((x : Int) - (D * m : Nat)).natAbs = ((x : Int) - (D * k : Nat)).natAbs →
      2 * x = 2 * D * m + D ∨ 2 * D * m = 2 * x + D) := by
  rw [Nat.mul_assoc] at h1 h2 ⊢
  rcases Nat.lt_trichotomy k m with hk | rfl | hk
  · have : D * k + D ≤ D * m := by
      calc D * k + D = D * (k + 1) := by ring
        _ ≤ D * m := Nat.mul_le_mul_left _ hk
    omega
  · exact ⟨Nat.le_refl _, fun h => absurd rfl h⟩
  · have : D * m + D ≤ D * k := by
      calc D * m + D = D * (m + 1) := by ring
        _ ≤ D * k := Nat.mul_le_mul_left _ hk
    omega

/-- Below a point P not above x that is no nearer to x than Q, everything is farther from x than Q. -/
theorem farther_below {x P Q V : Nat} (hP : P ≤ x) (hV : V < P)
    (h : ((x : Int) - (Q : Nat)).natAbs ≤ ((x : Int) - (P : Nat)).natAbs) :
    ((x : Int) - (Q : Nat)).natAbs < ((x : Int) - (V : Nat)).natAbs := by omega

/-- `roundMag` is the correct rounding of num/den. -/
theorem roundsTo_roundMag (neg : Bool) (num den : Nat) (hd : 0 < den) :
    RoundsTo neg num den (fpPattern neg (roundMag num den)) := by
  have hle := roundMag_le num den
  have hexp := fpExp_pattern neg (roundMag num den) (by omega)
  have hfrac := fpFrac_pattern neg (roundMag num den) (by omega)
  have hmag := fpMag_pattern neg (roundMag num den) (by omega)
  -- below overflow: the significand m and the step D
  have below : fpIsFinite (fpPattern neg (roundMag num den)) → ∀ v : Word,
      ((num : Int) - den * fpMag (fpPattern neg (roundMag num den))).natAbs ≤ ((num : Int) - den * fpMag v).natAbs ∧
      (fpMag v ≠ fpMag (fpPattern neg (roundMag num den)) →
        ((num : Int) - den * fpMag (fpPattern neg (roundMag num den))).natAbs = ((num : Int) - den * fpMag v).natAbs →
          fpFrac (fpPattern neg (roundMag num den)) % 2 = 0) := by
    intro hfin v
    have hlt : roundMag num den < 0x7F800000 := by
      have : roundMag num den / 2 ^ 23 ≠ 255 := by rw [← hexp]; exact hfin
      omega
    have hraw : roundMag num den = fpShift (num / den) * 2 ^ 23 + roundSig num den := by
      rw [roundMag_eq] at hlt ⊢
      rcases Nat.le_total (fpShift (num / den) * 2 ^ 23 + roundSig num den) 0x7F800000 with h | h
      · exact Nat.min_eq_left h
      · rw [Nat.min_eq_right h] at hlt; exact absurd hlt (Nat.lt_irrefl _)
    have hr := roundSig_range num den
    have hD : 0 < den * 2 ^ fpShift (num / den) := Nat.mul_pos hd (Nat.two_pow_pos _)
    have hc := roundNearestEven_close num (den * 2 ^ fpShift (num / den)) hD
    have ht := roundNearestEven_tie num (den * 2 ^ fpShift (num / den)) hD
    have hsh := (fpShift_spec (num / den)).2
    change _ ≤ 2 * _ * roundSig num den + _ ∧ 2 * _ * roundSig num den ≤ _ at hc
    change _ = 2 * _ * roundSig num den + _ ∨ 2 * _ * roundSig num den = _ → roundSig num den % 2 = 0 at ht
    have hM : fpMag (fpPattern neg (roundMag num den)) = roundSig num den * 2 ^ fpShift (num / den) := by
      rw [hmag, hraw, magOfBits_round _ _ hr.1 hr.2]
    have hDm : ((den : Int) * fpMag (fpPattern neg (roundMag num den)))
        = ((den * 2 ^ fpShift (num / den) * roundSig num den : Nat) : Int) := by
      rw [hM]; push_cast; ring
    rw [hDm, hfrac]
    generalize roundSig num den = m at *
    generalize hD' : den * 2 ^ fpShift (num / den) = D at *
    rcases fpMag_grid v (fpShift (num / den)) with ⟨k, hk⟩ | ⟨hpos, hlow⟩
    · have hDk : ((den : Int) * fpMag v) = ((D * k : Nat) : Int) := by rw [hk, ← hD']; push_cast; ring
      rw [hDk]
      have hn := nearest_multiple hc.1 hc.2 k
      refine ⟨hn.1, fun hne heq => ?_⟩
      have hkm : k ≠ m := by rintro rfl; exact hne (hk.trans hM.symm)
      have := ht (hn.2 hkm heq)
      omega
    · have hn := (nearest_multiple hc.1 hc.2 (2 ^ 23)).1
      have hge : D * 2 ^ 23 ≤ num := by
        rcases hsh with h0 | h0
        · omega
        · calc D * 2 ^ 23 = 2 ^ 23 * 2 ^ fpShift (num / den) * den := by rw [← hD']; ring
            _ ≤ num / den * den := Nat.mul_le_mul_right _ h0
            _ ≤ num := Nat.div_mul_le_self _ _
      have hv : den * fpMag v < D * 2 ^ 23 := by
        calc den * fpMag v < den * (2 ^ 23 * 2 ^ fpShift (num / den)) := Nat.mul_lt_mul_of_pos_left hlow hd
          _ = D * 2 ^ 23 := by rw [← hD']; ring
      rw [show ((den : Int) * fpMag v) = ((den * fpMag v : Nat) : Int) by push_cast; rfl]
      have hfar := farther_below hge hv hn
      exact ⟨Nat.le_of_lt hfar, fun _ heq => absurd heq (Nat.ne_of_lt hfar)⟩
  refine ⟨fpSign_pattern _ _, fun h => ?_, fun h => ?_, fun h v _ => (below h v).1, fun h v _ => (below h v).2⟩
  · rw [fpIsInf, hexp, hfrac, roundMag_overflow _ _ h hd]; exact ⟨rfl, rfl⟩
  · rw [fpIsFinite, hexp]
    have := roundRaw_lt num den hd h
    have h2 : roundMag num den ≤ fpShift (num / den) * 2 ^ 23 + roundSig num den := Nat.min_le_left _ _
    omega
end Sys2Proof.Machine
end

