-- ==== Sys2Proof/Laws/Step.lean ====
section
/-! SUPPORT. What a step can do (20_memory.md rule R73), and that every command answers a next state. -/

namespace Sys2Proof.Machine

/-- A command placed before a state is the next step's, and runs with the write acknowledged. -/
theorem step_commandInput (w : Word) (rest : List Input) (s : State) (h : s.inputs = commandInput w :: rest) :
    step s = runCommand w { s with inputs := rest, response := .done } := by
  unfold step nextStep
  rw [h]
  rfl

/-- Every command answers a next state: the block has no trap (R200, R263). -/
theorem exec_next (i : Instr) (s : State) : ∃ t, exec i s = .next t := by
  cases i <;> exact ⟨_, rfl⟩

/-- The cases of a step, one per kind of pending step; `s` is the state with the step taken off the pending ones. -/
inductive StepCase (e : Input) (s t : State) : Prop where
  /-- a command -/
  | command (w : Word) (i : Instr) (he : e = commandInput w) (hd : decode w = .command i)
      (ht : exec i { s with response := .done } = .next t)
  /-- an illegal word -/
  | illegal (w : Word) (why : IllegalWord) (he : e = commandInput w) (hd : decode w = .illegal why)
      (ht : t = illegalWord { s with response := .done })
  /-- a bus write to a register other than CMD -/
  | write (off : Offset) (v : Word) (he : e = .busWrite .word off v) (ha : off.toNat % 4 = 0)
      (hr : regAt off.toNat ≠ .cmd) (ht : t = writeReg (regAt off.toNat) v { s with response := .done })
  /-- a bus read, or an access refused with an error response -/
  | answer (r : BusResponse) (ht : t = { s with response := r })
  | receiveByte (k : Nat) (b : Byte) (he : e = .rxByte k b) (ht : t = Machine.receiveByte k b s)
  | receiveNotify (he : e = .rxNotify) (ht : t = Machine.receiveNotify s)
  | linkHandler (he : e = .linkHandler) (ht : t = linkHandlerStep s)
  | reset (he : e = .reset) (ht : t = resetInput s)

/-- Everything a step can do: idle, or one pending step. -/
theorem step_cases (s t : State) (h : step s = .next t) :
    (s.inputs = [] ∧ t = linkHandlerStep s) ∨
      ∃ e rest, s.inputs = e :: rest ∧ StepCase e { s with inputs := rest } t := by
  unfold step nextStep at h
  split at h
  · next hi => injection h with h; exact .inl ⟨hi, h.symm⟩
  · next e rest hi =>
    refine .inr ⟨e, rest, hi, ?_⟩
    cases e with
    | busRead width off => injection h with h; exact .answer _ h.symm
    | busWrite width off v =>
      simp only [runInput, busWrite] at h
      split at h
      · next ha =>
        obtain ⟨rfl, ha⟩ := ha
        split at h
        · next hc =>
          have ho : off = cmdOffset := by
            apply BitVec.eq_of_toNat_eq
            rw [regAt_cmd _ hc]; rfl
          subst ho
          simp only [runCommand] at h
          split at h
          · next i hd => exact .command v i rfl hd h
          · next why hd => injection h with h; exact .illegal v why rfl hd h.symm
        · next hc => injection h with h; exact .write off v rfl ha hc h.symm
      · injection h with h; exact .answer _ h.symm
    | rxByte k b => injection h with h; exact .receiveByte k b rfl h.symm
    | rxNotify => injection h with h; exact .receiveNotify rfl h.symm
    | linkHandler => injection h with h; exact .linkHandler rfl h.symm
    | reset => injection h with h; exact .reset rfl h.symm

end Sys2Proof.Machine
end

