-- ==== Sys2Proof/Laws/Watchdog.lean ====
section
/-! SUPPORT. What a safety-filter cycle and a link-handler step can do (42_watchdog.md rules R181 to R192). -/

namespace Sys2Proof.Machine

@[simp] theorem length_putFields (fields : List (Nat × Word)) (buf : List Byte) :
    (putFields fields buf).length = buf.length := by
  induction fields generalizing buf with
  | nil => rfl
  | cons f fs ih => simpa [putFields] using ih (putLe16 buf f.1 (compress f.2).value)

/-- The request PAYBUF (R182). -/
def requestPayload (s : State) : List Byte := putFields (requestFields s) (clearBytes s.paybuf)

/-- The packet SFCYCLE sends (R181): the header, then the request. -/
def requestPacket (s : State) : List Byte := framed (payloadLen s) (requestPayload s) s.txbuf

/-- Building the request writes PAYBUF and may set CMP_RANGE. -/
theorem buildRequest_eq (s : State) :
    buildRequest s = { s with paybuf := requestPayload s, sticky := (buildRequest s).sticky } := by
  unfold buildRequest requestPayload noteRange
  split <;> rfl

/-- The whole effect of the Ready path of SFCYCLE before U is replaced (R183). -/
theorem sendRequest_eq (s : State) :
    sendRequest s = { s with
      sticky := (buildRequest s).sticky
      txbuf := requestPacket s
      paybuf := clearBytes (requestPayload s)
      events := s.events ++ [.linkSend (pktLen s) (requestPacket s)]
      ready := false
      missed := 0 } := by
  have hb := buildRequest_eq s
  unfold sendRequest requestPacket
  rw [hb]
  simp [pack, payloadLen, pktLen, emit, clearPayload]

/-- The four outcomes of a safety-filter cycle (R181). -/
theorem safetyCycle_cases (s : State) :
    (sfActive s = false ∧ safetyCycle s = finish .sfInactive s) ∨
    (sfActive s = true ∧ s.ready = true ∧ safetyCycle s = finish .sent (replaceControl (sendRequest s))) ∨
    (sfActive s = true ∧ s.ready = false ∧ Config.thresh < (countMiss s).missed.toNat ∧
      safetyCycle s = finish .forcedStop (replaceControl (forceStop (countMiss s)))) ∨
    (sfActive s = true ∧ s.ready = false ∧ (countMiss s).missed.toNat ≤ Config.thresh ∧
      safetyCycle s = finish .missed (replaceControl (countMiss s))) := by
  unfold safetyCycle
  cases ha : sfActive s
  · exact .inl ⟨rfl, by simp⟩
  · cases hr : s.ready
    · by_cases ht : Config.thresh < (countMiss s).missed.toNat
      · exact .inr (.inr (.inl ⟨rfl, rfl, ht, by simp [ht]⟩))
      · exact .inr (.inr (.inr ⟨rfl, rfl, by omega, by simp [ht]⟩))
    · exact .inr (.inl ⟨rfl, rfl, by simp⟩)

/-- The outcomes of a link-handler step: not enabled, a bad header, a response applied, a stale packet (R190, R191). -/
theorem linkHandlerStep_cases (s : State) :
    (s.notify = false ∧ linkHandlerStep s = s) ∨
    (s.notify = true ∧ byteAt s.rxbuf 0 ≠ Config.header ∧
      linkHandlerStep s = rejectPacket { s with notify := false }) ∨
    (s.notify = true ∧ byteAt s.rxbuf 0 = Config.header ∧
      linkHandlerStep s = acceptPacket (unpacked { s with notify := false })) := by
  unfold linkHandlerStep
  cases hn : s.notify
  · exact .inl ⟨rfl, by simp⟩
  · refine .inr ?_
    rcases unpack_cases { s with notify := false } with ⟨h, hu⟩ | ⟨h, hu⟩
    · exact .inr ⟨rfl, h, by simp [handlePacket, hu]⟩
    · exact .inl ⟨rfl, h, by simp [handlePacket, hu]⟩

/-- Accepting a packet applies it exactly when a request is outstanding and the filter is active (R191). -/
theorem acceptPacket_cases (s : State) :
    (s.ready = false ∧ sfActive s = true ∧
      acceptPacket s = { applyResponse s with ready := true, missed := 0, lhres := .applied }) ∨
    (¬(s.ready = false ∧ sfActive s = true) ∧ acceptPacket s = { raiseBit .stale s with lhres := .stale }) := by
  by_cases h : s.ready = false ∧ sfActive s = true
  · exact .inl ⟨h.1, h.2, by simp [acceptPacket, h]⟩
  · exact .inr ⟨h, by simp [acceptPacket, h]⟩

end Sys2Proof.Machine
end

