-- ==== Sys2Proof/Tests/Slice0.lean ====
section
/-! SUPPORT. Tests: the ill-formed terms the assembler refuses, words and vectors of the spec (95_test_vectors.md, whose
vector each test names), and a witness for every statement that has hypotheses. -/

namespace Sys2Proof.Tests

open Sys2Proof Sys2Proof.Machine

/-! ## Helpers -/

/-- A block of the given variant after reset, with K9_INIT = K6_INIT = all +0.0 (95_test_vectors.md, conventions). -/
def fresh (v : SfVariant) : State :=
  { State.powerOn v with k9 := Vector.replicate 4 (Vector.replicate 9 0), k6 := Vector.replicate 4 (Vector.replicate 6 0) }

/-- The next state, if the outcome is one. -/
def next? (o : Host.Outcome State Fault Refusal) : Option State :=
  match o with
  | .next t => some t
  | .fault _ => none
  | .refused _ => none

/-- What a command word leaves, as the next step. -/
def after (w : Nat) (s : State) : Option State := next? (step (s.withFetchWord 32 w))

/-- What one pending step leaves. -/
def afterInput (e : Input) (s : State) : Option State := next? (step { s with inputs := [e] })

/-- A packet with the header 0x56 whose control fields are those of vector H2. -/
def packetH2 : List Byte := [0x56, 0x64, 0x00, 0x38, 0xFF, 0x28, 0x23, 0x9C, 0xFF, 0x32, 0, 0, 0, 0, 0, 0, 0]

/-- The ATT block with a request outstanding and H2's packet received. -/
def answered : State := { fresh .att with ready := false, notify := true, rxbuf := packetH2 }

/-! ## Well-formedness: an ill-formed term for each check, and the last well-formed one -/

theorem test_wf_cmpst : ¬ (Instr.cmpst 32 0).WellFormed ∧ (Instr.cmpst 31 0).WellFormed := by decide
theorem test_wf_ldexp : ¬ (Instr.ldexp 0 32).WellFormed ∧ (Instr.ldexp 0 31).WellFormed := by decide
theorem test_wf_pack : ¬ (Instr.pack 256).WellFormed ∧ (Instr.pack 255).WellFormed := by decide
theorem test_wf_setk : ¬ (Instr.setk .k9 0 16 0).WellFormed ∧ (Instr.setk .k9 0 15 0).WellFormed := by decide

/-! ## Decoding: words written out from R95's fields -/

/-- OP 0x01, RD 15, RS 10. -/
theorem test_decode_cmp : decode 0b00000001_1111_1010_0000000000000000#32 = .command (.cmp 15 10) := by decide
/-- OP 0x02, RD 3, RS 2 (vector X4). -/
theorem test_decode_exp : decode 0b00000010_0011_0010_0000000000000000#32 = .command (.exp 3 2) := by decide
/-- OP 0x03, RS 9, OFF 31 (IMM[4:0]). -/
theorem test_decode_cmpst : decode 0b00000011_0000_1001_00000000000_11111#32 = .command (.cmpst 31 9) := by decide
/-- OP 0x04, RD 5, OFF 4 (vector X14). -/
theorem test_decode_ldexp : decode 0b00000100_0101_0000_00000000000_00100#32 = .command (.ldexp 5 4) := by decide
/-- OP 0x05, SIZE 0xA5 (IMM[7:0]). -/
theorem test_decode_pack : decode 0b00000101_0000_0000_00000000_10100101#32 = .command (.pack 0xA5) := by decide
/-- OP 0x11, RS 15, BANK 1 (IMM[12]), I 3 (IMM[9:8]), J 5 (IMM[3:0]) (vector S3). -/
theorem test_decode_setk : decode 0b00010001_0000_1111_000_1_00_11_0000_0101#32 = .command (.setk .k6 3 5 15) := by decide
/-- The words without operands, and SETMODE's two (R95). -/
theorem test_decode_plain :
    decode 0x00000000 = .command .nop ∧ decode 0x06000000 = .command .unpack ∧ decode 0x07000000 = .command .clrpay ∧
    decode 0x10000000 = .command .matvec ∧ decode 0x20000000 = .command .sfcycle ∧
    decode 0x12000000 = .command (.setmode false) ∧ decode 0x12000001 = .command (.setmode true) := by decide
/-- Vectors E2, E5, E7, E8, E10, E11, K14, S7, S8, S9, X17: a reserved bit that is not zero. -/
theorem test_decode_reserved :
    decode 0x00000001 = .illegal (.reservedBits .nop) ∧ decode 0x12000002 = .illegal (.reservedBits .setmode) ∧
    decode 0x20000001 = .illegal (.reservedBits .sfcycle) ∧ decode 0x03000020 = .illegal (.reservedBits .cmpst) ∧
    decode 0x04010000 = .illegal (.reservedBits .ldexp) ∧ decode 0x06000001 = .illegal (.reservedBits .unpack) ∧
    decode 0x07000100 = .illegal (.reservedBits .clrpay) ∧ decode 0x10000001 = .illegal (.reservedBits .matvec) ∧
    decode 0x05000110 = .illegal (.reservedBits .pack) ∧ decode 0x11000010 = .illegal (.reservedBits .setk) ∧
    decode 0x11002000 = .illegal (.reservedBits .setk) ∧ decode 0x11100000 = .illegal (.reservedBits .setk) ∧
    decode 0x01100001 = .illegal (.reservedBits .cmp) := by decide
/-- Vector E6: an OP the table does not list. -/
theorem test_decode_unassigned :
    decode 0x08000000 = .illegal (.unassignedOp 0x08) ∧ decode 0x13000000 = .illegal (.unassignedOp 0x13) ∧
    decode 0x1F000000 = .illegal (.unassignedOp 0x1F) ∧ decode 0x21000000 = .illegal (.unassignedOp 0x21) ∧
    decode 0xFFFFFFFF = .illegal (.unassignedOp 0xFF) := by decide

/-! ## Compress and expand (sections 1.1 and 1.2) -/

/-- Truncation toward zero, both signs; the 0.009 row, where the binary32 product rounds up. -/
theorem test_compress_truncates :
    compress 0x3F9E0419 = ⟨0x04D2, false⟩ ∧ compress 0xBAC49BA6 = ⟨0xFFFF, false⟩ ∧ compress 0x3C1374BC = ⟨9, false⟩ ∧
    compress 0x42031168 = ⟨0x7FFE, false⟩ ∧ compress 0x80000001 = ⟨0, false⟩ ∧ compress 0xBE4CCCCD = ⟨0xFF38, false⟩ := by
  decide +kernel
/-- The ends of the range and the first inputs outside it. -/
theorem test_compress_ends :
    compress 0x4203126E = ⟨0x7FFF, false⟩ ∧ compress 0x4203126F = ⟨0x8000, true⟩ ∧
    compress 0xC2031374 = ⟨0x8000, false⟩ ∧ compress 0xC2031375 = ⟨0x7FFF, true⟩ := by decide +kernel
/-- Wrapped, saturated, infinite and NaN inputs. -/
theorem test_compress_overflow :
    compress 0x42200000 = ⟨0x9C40, true⟩ ∧ compress 0x501502F9 = ⟨0xFFFF, true⟩ ∧ compress 0xD01502F9 = ⟨0, true⟩ ∧
    compress 0x7F61B1E6 = ⟨0xFFFF, true⟩ ∧ compress 0xFF800000 = ⟨0, true⟩ ∧ compress 0xFF800001 = ⟨0, true⟩ := by
  decide +kernel
/-- The named alternative CMP_PRODUCT = EXACT. -/
theorem test_compress_exact :
    compressWith .exact 0x3C1374BC = ⟨8, false⟩ ∧ compressWith .exact 0x7F61B1E6 = ⟨0xFFFF, true⟩ := by decide +kernel
theorem test_expand :
    expand 1 = 0x3A83126F ∧ expand 0xFFFF = 0xBA83126F ∧ expand 0x00FB = 0x3E808312 ∧ expand 0x04D2 = 0x3F9DF3B6 ∧
    expand 0x7FFF = 0x42031168 ∧ expand 0x8000 = 0xC203126F ∧ expand 0x9C40 = 0xC1CC49BA := by decide +kernel

/-! ## The commands, one step each -/

/-- E1. -/
theorem test_nop : (after 0x00000000 { fresh .att with result := .illegal }).map (·.result) = some .ok := by decide
/-- E3, E4. -/
theorem test_setmode_six : (after 0x12000001 (fresh .att)).map (·.lqr6) = some true := by decide
theorem test_setmode_nine : (after 0x12000000 { fresh .att with lqr6 := true }).map (·.lqr6) = some false := by decide
/-- X2: RD = RS. -/
theorem test_cmp_same_register :
    (after 0x01000000 (writeD 0 0xBF800000 (fresh .att))).map (fun t => (t.d[0], t.sticky)) =
      some (0xFFFFFC18, 0) := by decide +kernel
/-- X3. -/
theorem test_cmp_out_of_range :
    (after 0x01410000 (writeD 1 0x42200000 (fresh .att))).map (fun t => (t.d[4], t.sticky, t.result)) =
      some (0xFFFF9C40, 0x01, .ok) := by decide +kernel
/-- X5: bits [31:16] ignored. -/
theorem test_exp_ignores_high_half :
    (after 0x02320000 (writeD 2 0x12340001 (fresh .att))).map (fun t => t.d[3]) = some 0x3A83126F := by decide +kernel
/-- X8: the last legal offset of ATT, in the padding. -/
theorem test_cmpst_padding :
    (after 0x0300000E (writeD 0 0x3F800000 (fresh .att))).map (·.paybuf) =
      some (List.replicate 14 0x00 ++ [0xE8, 0x03]) := by decide +kernel
/-- X11: the offset check comes before the compress. -/
theorem test_cmpst_bad_offset_nan :
    (after 0x0300001F (writeD 0 0x7FC00000 (fresh .att))).map (fun t => (t.sticky, t.result)) =
      some (0x08, .badIndex) := by decide +kernel
/-- X14. -/
theorem test_ldexp :
    (after 0x04500004 { fresh .att with respbuf := [0, 0, 0, 0, 0x18, 0xFC, 0, 0, 0, 0, 0, 0, 0, 0, 0, 0] }).map
      (fun t => t.d[5]) = some 0xBF800000 := by decide +kernel
/-- X16. -/
theorem test_ldexp_bad_offset :
    (after 0x04100010 (fresh .att)).map (fun t => (t.result, t.d[1])) = some (.badIndex, 0) := by decide +kernel
/-- K3: the tail is kept. -/
theorem test_pack_keeps_tail :
    (after 0x05000004 { fresh .att with
      paybuf := [0xAA, 0xBB, 0xCC, 0xDD] ++ List.replicate 12 0x11
      txbuf := 0x56 :: List.replicate 16 0x11 }).map (·.txbuf) =
      some ([0x56, 0xAA, 0xBB, 0xCC, 0xDD] ++ List.replicate 12 0x11) := by decide
/-- K2, K12: one byte too many, in ATT and in DISABLED. -/
theorem test_pack_oversize :
    (after 0x05000011 (fresh .att)).map (fun t => (t.result, t.sticky)) = some (.oversize, 0x02) ∧
    (after 0x05000001 (fresh .disabled)).map (fun t => t.result) = some .oversize := by decide
/-- K6. -/
theorem test_unpack :
    (after 0x06000000 { fresh .pos with
      rxbuf := [0x56, 1, 2, 3, 4, 5, 6, 7, 8, 9, 10, 11, 12, 13, 14, 15, 16, 17, 18, 19, 20] }).map
        (fun t => (t.respbuf, t.rxbuf, t.rate)) =
      some ([1, 2, 3, 4, 5, 6, 7, 8, 9, 10, 11, 12, 13, 14, 15, 16, 17, 18, 19, 20], List.replicate 21 0, 1) := by decide
/-- K7. -/
theorem test_unpack_bad_header :
    (after 0x06000000 { fresh .att with rxbuf := 0x55 :: List.replicate 16 0x22 }).map
      (fun t => (t.result, t.sticky, t.rxbuf, t.rate)) =
      some (.invalid, 0x04, 0x55 :: List.replicate 16 0x22, 0) := by decide
/-- K10. -/
theorem test_clrpay :
    (after 0x07000000 { fresh .att with paybuf := 0xE8 :: 0x03 :: List.replicate 14 0 }).map (·.paybuf) =
      some (List.replicate 16 0) := by decide
/-- M2. -/
theorem test_matvec_six_state :
    (after 0x10000000 { fresh .att with
      lqr6 := true
      k6 := (Vector.replicate 4 (Vector.replicate 6 0)).set 0 ((Vector.replicate 6 0).set 2 0x40000000)
      err := (Vector.replicate 9 0).set 2 0x3F000000
      ff := #v[0x411CF5C3, 0, 0, 0] }).map (·.u) = some #v[0x410CF5C3, 0, 0, 0] := by decide +kernel
/-- M6 and M4: the order of the sum in component 0, and an infinite product in component 1. -/
theorem test_matvec_order_and_infinity :
    (after 0x10000000 { fresh .att with
      k9 := #v[#v[0x3F800000, 0x3F800000, 0xBF800000, 0, 0, 0, 0, 0, 0], #v[0, 0, 0, 0x7F7FFFFF, 0, 0, 0, 0, 0],
        Vector.replicate 9 0, Vector.replicate 9 0]
      err := #v[0x4CBEBC20, 0x3F800000, 0x4CBEBC20, 0x40000000, 0, 0, 0, 0, 0]
      ff := #v[0, 0x3F800000, 0, 0] }).map (·.u) = some #v[0, 0xFF800000, 0, 0] := by decide +kernel
/-- S2, at its place in the register window. -/
theorem test_setk :
    (after 0x11050308 (writeD 5 0x3F800000 (fresh .att))).map (fun t => readReg (regAt 0x28C) t) =
      some 0x3F800000 := by decide
/-- S4, S6. -/
theorem test_setk_bad_column :
    (after 0x11001006 (fresh .att)).map (fun t => (t.result, t.sticky)) = some (.badIndex, 0x08) ∧
    (after 0x1100000F (fresh .att)).map (fun t => t.result) = some .badIndex := by decide
/-- W1. -/
theorem test_sfcycle_sends :
    (after 0x20000000 { fresh .att with
      sv := #v[0, 0, 0, 0, 0, 0, 0x3DCCCCCD, 0xBE4CCCCD, 0]
      u := #v[0x411CF5C3, 0, 0, 0x3F000000] }).map (fun t => (t.events.getLast?, t.ready, t.missed, t.u, t.result)) =
      some (some (.linkSend 17 [0x56, 0x64, 0, 0x38, 0xFF, 0x52, 0x26, 0, 0, 0, 0, 0xF4, 0x01, 0, 0, 0, 0]),
        false, 0, Vector.replicate 4 0, .sent) := by decide +kernel
/-- W4. -/
theorem test_sfcycle_forced_stop :
    (after 0x20000000 { fresh .att with ready := false, missed := 200, usf := #v[0x40A00000, 0, 0, 0] }).map
      (fun t => (t.missed, t.usf, t.u, t.ready)) =
      some (201, Vector.replicate 4 0, Vector.replicate 4 0, true) ∧
    (after 0x20000000 { fresh .att with ready := false, missed := 200 }).map
      (fun t => (t.sticky, t.result, t.events.length)) = some (0x20, .forcedStop, 1) := by decide +kernel
/-- E7: an illegal word runs no command. -/
theorem test_illegal_word :
    (after 0x20000001 (fresh .att)).map (fun t => (t.result, t.sticky, t.ready)) = some (.illegal, 0x10, true) := by decide
/-- P4, step 4: the position form's request. -/
theorem test_position_request :
    (after 0x20000000 { fresh .pos with
      lqr6 := true
      sv := #v[0x3F800000, 0xC0000000, 0x3F000000, 0, 0, 0xBE800000, 0, 0, 0]
      u := #v[0x411CF5C3, 0x3DCCCCCD, 0, 0] }).map (·.txbuf) =
      some [0x56, 0xE8, 0x03, 0x30, 0xF8, 0xF4, 0x01, 0, 0, 0, 0, 0x06, 0xFF, 0x52, 0x26, 0x64, 0, 0, 0, 0, 0] := by
  decide +kernel

/-! ## The link handler, the transport and the bus -/

/-- H2. -/
theorem test_lh_applies :
    (afterInput .linkHandler answered).map (fun t => (t.usf, t.ready, t.lhres, t.rate, t.notify)) =
      some (#v[0x41100000, 0xBDCCCCCD, 0x3D4CCCCD, 0], true, .applied, 1, false) := by decide +kernel
/-- H1. -/
theorem test_lh_resync :
    (afterInput .linkHandler { answered with rxbuf := 0x55 :: List.replicate 16 0 }).map
      (fun t => (t.lhres, t.sticky, t.events.getLast?, t.ready)) =
      some (.invalidResync, 0x04, some (.linkResync 17), false) := by decide
/-- H3, H4. -/
theorem test_lh_stale :
    (afterInput .linkHandler { answered with ready := true }).map (fun t => (t.lhres, t.sticky, t.rate)) =
      some (.stale, 0x40, 1) ∧
    (afterInput .linkHandler { answered with lqr6 := true }).map (fun t => (t.lhres, t.ready)) =
      some (.stale, false) := by decide
/-- H9: the position form's response, offset 12. -/
theorem test_lh_position :
    (afterInput .linkHandler { fresh .pos with
      lqr6 := true, ready := false, notify := true
      rxbuf := 0x56 :: (List.replicate 12 0 ++ [0x88, 0x13, 0, 0, 0, 0, 0, 0]) }).map (·.usf) =
      some #v[0x40A00000, 0, 0, 0] := by decide +kernel
/-- H8. -/
theorem test_lh_iters :
    (afterInput .linkHandler { fresh .attIt with
      ready := false, notify := true
      rxbuf := 0x56 :: (List.replicate 12 0 ++ [7, 0, 0, 0, 0, 0, 0, 0]) }).map (·.iters) = some 7 := by decide +kernel
/-- H6. -/
theorem test_rx_byte_past_end :
    (afterInput (.rxByte 17 0x56) (fresh .att)).map (·.rxbuf) = some (List.replicate 17 0) := by decide
/-- B1, B2. -/
theorem test_config_words :
    configWord .att = 0x00111002 ∧ configWord .pos = 0x00151401 ∧ configWord .attIt = 0x00151403 ∧
    configWord .disabled = 0x00010000 := by decide
/-- B5. -/
theorem test_status_clear :
    (afterInput (.busWrite .word 0x008 0x00000004) { fresh .att with sticky := 0x1E }).map statusWord =
      some 0x0001001A := by decide
/-- B7, B8. -/
theorem test_paybuf_word :
    (afterInput (.busWrite .word 0x400 0x44332211) (fresh .att)).map (fun t => t.paybuf.take 4) =
      some [0x11, 0x22, 0x33, 0x44] ∧
    (afterInput (.busWrite .word 0x410 0x12345678) (fresh .att)).map (fun t => readReg (.paybuf 4) t) = some 0 := by
  decide
/-- B12. -/
theorem test_bad_access :
    (afterInput (.busRead .half 0x000) (fresh .att)).map (·.response) = some .error ∧
    (afterInput (.busRead .word 0x002) (fresh .att)).map (·.response) = some .error := by decide
/-- B14. -/
theorem test_status_mirrors :
    statusWord { fresh .att with ready := false, notify := true, sticky := 0x20 } = 0x00020020 := by decide

/-! ## Witnesses: for each statement with hypotheses, operands and a state that meet them, at the ends of their ranges -/

/-- The buffers of a fresh block fit. -/
theorem fresh_fits (v : SfVariant) : BuffersFit (fresh v) := by cases v <;> exact ⟨rfl, rfl, rfl, rfl⟩

theorem witness_DecodeOfEncode :
    (Instr.setk .k6 3 15 15).WellFormed ∧ (Instr.cmpst 31 15).WellFormed ∧ (Instr.pack 255).WellFormed ∧
    decode (encode (.setk .k6 3 15 15)) = .command (.setk .k6 3 15 15) := by decide
theorem witness_EncodeOfDecode :
    decode 0x110F130F = .command (.setk .k6 3 15 15) ∧ encode (.setk .k6 3 15 15) = 0x110F130F := by decide
theorem witness_WordDecodesToItsOneRow :
    rowMatches .pack 0x050000FF ∧ ∀ o ∈ allOpcodes, ¬ rowMatches o 0x05000100 := by decide
theorem witness_IllegalWordFails : ∀ o : Opcode, ¬ rowMatches o 0x03000020 := by intro o; cases o <;> decide
theorem witness_StepRunsDecodedCommand :
    ((fresh .att).withFetchWord 32 0x01FA0000).inputs = .busWrite .word 0x00C 0x01FA0000 :: [] ∧
    decode 0x01FA0000 = .command (.cmp 15 10) := by decide
theorem witness_IdleBlock :
    (fresh .att).inputs = [] ∧ (fresh .att).notify = false ∧ answered.inputs = [] ∧ answered.notify = true := by decide
/-- A NaN, a finite product, and an infinite product of a finite input. -/
theorem witness_CompressFollowsItsRule :
    fpIsNaN 0x7F800001 ∧ ¬ fpIsNaN 0x7F7FFFFF ∧ fpIsInf (mul32 fpDefaultNaN 0x7F7FFFFF 0x447A0000) ∧
    ¬ fpIsInf (mul32 fpDefaultNaN 0x3F800000 0x447A0000) := by decide +kernel
/-- Both ends are in range and their outer neighbours are not; a pair of inputs in range, and the negation of one. -/
theorem witness_CompressProperties :
    (compress 0xC2031374).outOfRange = false ∧ (compress 0x4203126E).outOfRange = false ∧
    (compress 0xC2031375).outOfRange = true ∧ (compress 0x4203126F).outOfRange = true ∧
    fpScaled 0xC2031374 ≤ fpScaled 0x4203126E ∧
    (compress 0x42031374).value = -(compress 0xC2031374).value := by decide +kernel
theorem witness_ExpandIsNearestQuotient : fpIsFinite 0x7F7FFFFF ∧ (0x8000 : Half) ≠ 0 := by decide
/-- The input of the largest error R154 names. -/
theorem witness_RoundTripError : fpIsFinite 0x4180020C ∧ fpMag 0x4180020C < 32 * 2 ^ 149 := by decide +kernel
/-- An odd offset, the first one past the end, and offset 0 in DISABLED. -/
theorem witness_BadPayloadOffsetFails :
    3 % 2 ≠ 0 ∧ (fresh .att).variant.payloadLen < 15 + 2 ∧ (fresh .pos).variant.payloadLen < 20 + 2 ∧
    (fresh .disabled).variant = .disabled := by decide
theorem witness_CmpstStoresTheField :
    BuffersFit (fresh .pos) ∧ 18 % 2 = 0 ∧ 18 + 2 ≤ (fresh .pos).variant.payloadLen :=
  ⟨fresh_fits _, by decide, by decide⟩
theorem witness_LdexpLoadsTheField : 14 % 2 = 0 ∧ 14 + 2 ≤ (fresh .att).variant.payloadLen := by decide
theorem witness_PackFramesThePayload :
    BuffersFit (fresh .att) ∧ 16 ≤ (fresh .att).variant.payloadLen ∧
    BuffersFit (fresh .disabled) ∧ 0 ≤ (fresh .disabled).variant.payloadLen :=
  ⟨fresh_fits _, by decide, fresh_fits _, by decide⟩
theorem witness_OversizePackFails : (fresh .att).variant.payloadLen < 17 := by decide
theorem witness_UnpackAcceptsAGoodHeader : BuffersFit answered ∧ byteAt answered.rxbuf 0 = 0x56 :=
  ⟨⟨rfl, rfl, rfl, rfl⟩, rfl⟩
theorem witness_UnpackRejectsABadHeader : byteAt (fresh .att).rxbuf 0 ≠ 0x56 := by decide
theorem witness_CodecIsLossless : BuffersFit (fresh .pos) ∧ 20 ≤ (fresh .pos).variant.payloadLen :=
  ⟨fresh_fits _, by decide⟩

/-- M1: minus zeros in ERR, all gains 1.0, and a FF with -0.0 and a NaN. -/
def zeroError : State :=
  { fresh .att with
    k9 := Vector.replicate 4 (Vector.replicate 9 0x3F800000)
    err := Vector.replicate 9 0x80000000
    ff := #v[0x80000000, 0x411CF5C3, 0x7FC00001, 0x3F800000] }

/-- M1's component 2: a NaN in FF. -/
theorem witness_MatvecNaNIsQuiet :
    ∃ t, exec .matvec zeroError = .next t ∧ fpIsNaN t.u[(2 : Fin 4)] := by
  refine ⟨_, rfl, ?_⟩
  have h : ∀ nan b : Word, sub32 nan 0x7FC00001 b = nan := by
    intro nan b
    rw [sub32, add32, if_pos (.inl (by decide))]
  change fpIsNaN (controlRow zeroError 2)
  rw [controlRow, show zeroError.ff[(2 : Fin 4)] = 0x7FC00001 from rfl, h]
  exact (fpIsQuietNaN_drawnNaN _).1

/-- Two states that agree on what MATVEC reads and differ in what it does not: D, K6, the count of draws. -/
theorem witness_MatvecIsAFunctionOfItsOperands :
    let s := zeroError
    let s' := { zeroError with d := Vector.replicate 16 1, draws := 7, k6 := Vector.replicate 4 (Vector.replicate 6 1) }
    s'.lqr6 = s.lqr6 ∧ s'.err = s.err ∧ s'.ff = s.ff ∧ (s.lqr6 = false → s'.k9 = s.k9) ∧
      (s.lqr6 = true → s'.k6 = s.k6) ∧
      (∃ t, exec .matvec s = .next t) ∧ ∃ t', exec .matvec s' = .next t' :=
  ⟨rfl, rfl, rfl, fun _ => rfl, fun h => absurd h (by decide), ⟨_, rfl⟩, ⟨_, rfl⟩⟩

theorem witness_ZeroErrorGivesFeedforward :
    ((∀ j : Fin 9, fpIsZero zeroError.err[j]) ∧ ∀ (i : Fin 4) (j : Fin 9), fpIsFinite zeroError.k9[i][j]) ∧
    zeroError.lqr6 = false ∧ ¬ fpIsNaN zeroError.ff[(0 : Fin 4)] ∧ fpIsNaN zeroError.ff[(2 : Fin 4)] ∧
    (let s := { zeroError with lqr6 := true }
     (∀ j : Fin 6, fpIsZero s.err[j.val]) ∧ ∀ (i : Fin 4) (j : Fin 6), fpIsFinite s.k6[i][j]) := by decide
/-- M1's components that the draw does not touch. -/
theorem test_matvec_zero_error :
    (after 0x10000000 zeroError).map (fun t => (t.u[0], t.u[1], t.u[3])) =
      some (0x80000000, 0x411CF5C3, 0x3F800000) := by decide +kernel
/-- SetkWritesOneGainEntry and SetkRejectsABadColumn: the last column of each bank, and the first past it. -/
theorem witness_Setk : 8 < Bank.k9.cols ∧ ¬ 9 < Bank.k9.cols ∧ 5 < Bank.k6.cols ∧ ¬ 6 < Bank.k6.cols := by decide
/-- OnlySetkWritesGains: a step that is neither the reset input nor SETK, the idle step. -/
theorem witness_OnlySetkWritesGains :
    ∃ t, step (fresh .att) = .next t ∧ ¬ NextReset (fresh .att) ∧
      ∀ bank i j rs, ¬ NextCommand (fresh .att) (.setk bank i j rs) :=
  ⟨_, rfl, (by rintro ⟨_, h⟩; cases h), (by rintro _ _ _ _ ⟨_, _, h, _⟩; cases h)⟩
/-- FilterActiveExactly and InactiveCycleChangesOnlyResult: both answers, in the variants that give them. -/
theorem witness_FilterActive :
    sfActive (fresh .att) = true ∧ sfActive { fresh .pos with lqr6 := true } = true ∧
    sfActive (fresh .disabled) = false ∧ sfActive (fresh .pos) = false := by decide
/-- ReadyCycleSendsARequest, RequestHoldsItsFields in both its layouts, and ForcedStopFiresAtExactly201. -/
theorem witness_ReadyCycle :
    BuffersFit (fresh .att) ∧ sfActive (fresh .att) = true ∧ (fresh .att).ready = true ∧
    (∃ t, exec .sfcycle (fresh .att) = .next t) ∧ (fresh .att).variant = .att ∧
    BuffersFit { fresh .pos with lqr6 := true } ∧ sfActive { fresh .pos with lqr6 := true } = true ∧
    { fresh .pos with lqr6 := true }.ready = true :=
  ⟨fresh_fits _, rfl, rfl, ⟨_, rfl⟩, rfl, ⟨rfl, rfl, rfl, rfl⟩, rfl, rfl⟩
/-- The last counted miss, and the first that stops. -/
theorem witness_MissedCycleCounts :
    let s := { fresh .att with ready := false, missed := 199 }
    sfActive s = true ∧ s.ready = false ∧ s.missed.toNat < 200 := by decide
theorem witness_ForcedStopAboveThreshold :
    (let s := { fresh .att with ready := false, missed := 200 }
     sfActive s = true ∧ s.ready = false ∧ 200 ≤ s.missed.toNat) ∧
    (let s := { fresh .attIt with ready := false, missed := 0xFFFFFFFF }
     sfActive s = true ∧ s.ready = false ∧ 200 ≤ s.missed.toNat) := by decide
/-- The three statements about the LH step: applied, a bad header, stale. -/
theorem witness_LinkHandler :
    let s := { answered with inputs := [.linkHandler] }
    BuffersFit s ∧ s.inputs = .linkHandler :: [] ∧ s.notify = true ∧ byteAt s.rxbuf 0 = 0x56 ∧ s.ready = false ∧
      sfActive s = true ∧
      (let bad := { s with rxbuf := 0x55 :: List.replicate 16 0 }
       bad.inputs = .linkHandler :: [] ∧ bad.notify = true ∧ byteAt bad.rxbuf 0 ≠ 0x56) ∧
      (let stale := { s with ready := true }
       BuffersFit stale ∧ byteAt stale.rxbuf 0 = 0x56 ∧ stale.ready = true) :=
  ⟨⟨rfl, rfl, rfl, rfl⟩, rfl, rfl, rfl, rfl, rfl, ⟨rfl, rfl, by decide⟩, ⟨rfl, rfl, rfl, rfl⟩, rfl, rfl⟩
theorem witness_TransportEvents :
    let s := { fresh .att with inputs := [.rxByte 16 0x56] }
    BuffersFit s ∧ s.inputs = .rxByte 16 0x56 :: [] ∧
      { fresh .att with inputs := [.rxNotify] }.inputs = .rxNotify :: [] :=
  ⟨⟨rfl, rfl, rfl, rfl⟩, rfl, rfl⟩
/-- EachStepEmitsAtMostOneEvent and AtMostOneRequestOutstanding: a step that sends. -/
theorem witness_Outbound :
    ∃ t bytes, step { fresh .att with inputs := [commandInput 0x20000000] } = .next t ∧
      t.events = (fresh .att).events ++ [.linkSend 17 bytes] ∧
      ¬ NextReset { fresh .att with inputs := [commandInput 0x20000000] } :=
  ⟨_, _, rfl, rfl, (by rintro ⟨_, h⟩; cases h)⟩
/-- AtMostOneRequestOutstanding: a step that re-arms READY. -/
theorem witness_Rearm :
    let s := { answered with inputs := [.linkHandler] }
    (∃ t, step s = .next t ∧ t.ready = true) ∧ s.ready = false ∧ ¬ NextReset s :=
  ⟨⟨_, rfl, rfl⟩, rfl, (by rintro ⟨_, h⟩; cases h)⟩
/-- The two ends of a reserved range, beside the registers next to it. -/
theorem witness_RegisterMapPlaces :
    regAt 0x020 = .iters ∧ regAt 0x024 = .reserved ∧ regAt 0x03C = .reserved ∧ regAt 0x040 = .d 0 ∧
    regAt 0x35C = .k6 3 5 ∧ regAt 0x360 = .reserved ∧ regAt 0x4D0 = .respbuf 4 ∧ regAt 0x4D4 = .reserved ∧
    regAt 0x7FC = .reserved := by decide
theorem witness_BadAccess :
    (Width.byte ≠ .word ∨ (0x000 : Offset).toNat % 4 ≠ 0) ∧ (Width.word ≠ .word ∨ (0x002 : Offset).toNat % 4 ≠ 0) ∧
    { fresh .att with inputs := [.busRead .byte 0] }.inputs = .busRead .byte 0 :: [] ∧
    { fresh .att with inputs := [.busWrite .word 2 9] }.inputs = .busWrite .word 2 9 :: [] := by decide
/-- BusReadHasNoSideEffect, and its two offsets that read 0. -/
theorem witness_BusRead :
    { fresh .att with inputs := [.busRead .word 0x00C] }.inputs = .busRead .word 0x00C :: [] ∧
    (0x00C : Offset).toNat % 4 = 0 ∧ regAt (0x00C : Offset).toNat = .cmd ∧
    regAt (0x7FC : Offset).toNat = .reserved := by decide
/-- DataRegisterWriteReadsBack at both ends of its three ranges, and ReadOnlyWriteIsIgnored at the offsets beside them. -/
theorem witness_DataRegisterWrite :
    (∀ off ∈ ([0x040, 0x0A0, 0x0B0, 0x0CC, 0x100, 0x120] : List Offset), off.toNat % 4 = 0 ∧
      ((0x040 ≤ off.toNat ∧ off.toNat < 0x0A4) ∨ (0x0B0 ≤ off.toNat ∧ off.toNat < 0x0D0) ∨
        (0x100 ≤ off.toNat ∧ off.toNat < 0x124))) ∧
    ∀ off ∈ ([0x000, 0x010, 0x03C, 0x0A4, 0x0D0, 0x0FC, 0x124, 0x3FC, 0x414, 0x7FC] : List Offset),
      off.toNat % 4 = 0 ∧ off.toNat ≠ 0x004 ∧ off.toNat ≠ 0x008 ∧ off.toNat ≠ 0x00C ∧
        ¬ (0x040 ≤ off.toNat ∧ off.toNat < 0x0A4) ∧ ¬ (0x0B0 ≤ off.toNat ∧ off.toNat < 0x0D0) ∧
        ¬ (0x100 ≤ off.toNat ∧ off.toNat < 0x124) ∧ ¬ (0x400 ≤ off.toNat ∧ off.toNat < 0x414) := by decide
theorem witness_ConfigIsFixed : ∃ t, step (fresh .att) = .next t := ⟨_, rfl⟩
/-- ResetInputRestoresTheResetState: the reset input pending. -/
theorem witness_ResetInput : { answered with inputs := [.reset] }.inputs = .reset :: [] := rfl
/-- A sound state that is not the reset state: a request outstanding. -/
theorem witness_EveryStepKeepsSound :
    Sound answered ∧ ∃ t, step answered = .next t :=
  ⟨{ buffers := ⟨rfl, rfl, rfl, rfl⟩
     watchdog := ⟨by decide, by decide⟩
     outbound := ⟨⟨[], rfl⟩, by
      intro e he
      cases List.mem_singleton.mp he
      exact ⟨by decide, rfl, rfl⟩⟩
     iters := fun _ => rfl
     disabled := fun h => by cases h }, ⟨_, rfl⟩⟩
/-- AtMostOneRequestOutstanding, its last clause: a step that is neither an SFCYCLE nor an applied response, an LH step that
is enabled on a bad header while a request is outstanding. -/
theorem witness_OtherStep :
    let s := { answered with inputs := [.linkHandler], rxbuf := 0x55 :: List.replicate 16 0 }
    (∃ t, step s = .next t) ∧ ¬ NextReset s ∧ ¬ NextCommand s .sfcycle ∧ ¬ AppliesResponse s ∧ s.ready = false :=
  ⟨⟨_, rfl⟩, (by rintro ⟨_, h⟩; cases h), (by rintro ⟨_, _, h, _⟩; cases h), (by rintro ⟨_, _, h, _⟩; revert h; decide), rfl⟩
/-- RoundingIsNearestEven: a rounding below overflow that is a tie (2^24 + 1 units), the first one that overflows, and the
last that does not. -/
theorem witness_RoundingIsNearestEven :
    roundMag (2 ^ 24 + 1) 1 < 0x7F800000 ∧ fpIsFinite 0x01000001 ∧
    fpMag (fpPattern false (roundMag (2 ^ 24 + 1) 1)) = 2 ^ 24 ∧ fpMag 0x01000001 = 2 ^ 24 + 2 ∧
    roundMag ((2 ^ 25 - 1) * 2 ^ 252) 1 = 0x7F800000 ∧ roundMag ((2 ^ 25 - 1) * 2 ^ 252 - 1) 1 = 0x7F7FFFFF := by
  decide +kernel
/-- RoundingIsNearestEven: finite operands whose sum and whose difference are not zero, with a divisor that is none, and
operands whose sum or whose difference is an exact zero. -/
theorem witness_FiniteOperands :
    fpIsFinite 0x3F800000 ∧ fpIsFinite 0x40000000 ∧ fpScaled 0x3F800000 + fpScaled 0x40000000 ≠ 0 ∧
    fpScaled 0x3F800000 - fpScaled 0x40000000 ≠ 0 ∧ ¬ fpIsZero 0x40000000 ∧
    fpScaled 0x80000000 + fpScaled 0x80000000 = 0 ∧ fpScaled 0x80000000 - fpScaled 0x00000000 = 0 ∧
    fpScaled 0x3F800000 + fpScaled 0xBF800000 = 0 := by decide +kernel
/-- Hand-worked: 1 + 2^-24 is a tie and stays 1, the largest finite value doubled overflows, -0.0 - +0.0 is -0.0, and 1 / 3
is rounded up. -/
theorem test_arithmetic :
    add32 fpDefaultNaN 0x3F800000 0x33800000 = 0x3F800000 ∧ add32 fpDefaultNaN 0xFF7FFFFF 0xFF7FFFFF = 0xFF800000 ∧
    sub32 fpDefaultNaN 0x80000000 0x00000000 = 0x80000000 ∧ div32 fpDefaultNaN 0x3F800000 0x40400000 = 0x3EAAAAAB := by
  decide +kernel
theorem witness_SpecialValues :
    fpIsNaN 0x7FC00000 ∧ fpIsInf 0xFF800000 ∧ fpIsInf 0x7F800000 ∧ fpSign 0xFF800000 ≠ fpSign 0x7F800000 ∧
    fpIsFinite 0x3F800000 ∧ ¬ fpIsZero 0x3F800000 ∧ fpIsZero 0x80000000 := by decide

end Sys2Proof.Tests
end

section
/-! PROOF of O59 (00_scope.md rule R9): what each operation gives on finite operands, and that it is correctly rounded. -/

namespace Sys2Proof.Machine

theorem not_isNaN_of_isFinite {w : Word} (h : fpIsFinite w) : ¬ fpIsNaN w := fun hn => h hn.1

theorem not_isInf_of_isFinite {w : Word} (h : fpIsFinite w) : ¬ fpIsInf w := fun hi => h hi.1

theorem fpIsFinite_fpNeg {w : Word} (h : fpIsFinite w) : fpIsFinite (fpNeg w) := by
  rwa [fpIsFinite, fpExp_fpNeg]

theorem fpMag_pos_of_not_isZero {w : Word} (h : ¬ fpIsZero w) : 0 < fpMag w := by
  unfold fpMag
  split
  next he => exact Nat.pos_of_ne_zero fun hf => h ⟨he, hf⟩
  next => exact Nat.mul_pos (by omega) (Nat.two_pow_pos _)

/-- The zero of each sign. -/
theorem fpPattern_zero (neg : Bool) : fpPattern neg 0 = if neg = true then 0x80000000 else 0x00000000 := by
  cases neg <;> rfl

section
variable {nan a b : Word} (ha : fpIsFinite a) (hb : fpIsFinite b)
include ha hb

theorem mul32_of_isFinite :
    mul32 nan a b = fpPattern (fpSign a != fpSign b) (roundMag (fpMag a * fpMag b) (2 ^ 149)) := by
  rw [mul32, if_neg (not_or.mpr ⟨not_isNaN_of_isFinite ha, not_isNaN_of_isFinite hb⟩),
    if_neg (not_or.mpr ⟨not_isInf_of_isFinite ha, not_isInf_of_isFinite hb⟩), fpOne]

theorem add32_of_isFinite :
    add32 nan a b =
      if fpScaled a + fpScaled b = 0 then fpPattern (fpSign a && fpSign b) 0
      else fpPattern (decide (fpScaled a + fpScaled b < 0)) (roundMag (fpScaled a + fpScaled b).natAbs 1) := by
  rw [add32, if_neg (not_or.mpr ⟨not_isNaN_of_isFinite ha, not_isNaN_of_isFinite hb⟩),
    if_neg (not_isInf_of_isFinite ha), if_neg (not_isInf_of_isFinite hb)]

theorem div32_of_isFinite (hz : ¬ fpIsZero b) :
    div32 nan a b = fpPattern (fpSign a != fpSign b) (roundMag (fpMag a * 2 ^ 149) (fpMag b)) := by
  rw [div32, if_neg (not_or.mpr ⟨not_isNaN_of_isFinite ha, not_isNaN_of_isFinite hb⟩),
    if_neg (not_isInf_of_isFinite ha), if_neg (not_isInf_of_isFinite hb), if_neg hz, fpOne]

theorem mul32_roundsTo :
    RoundsTo (fpSign a != fpSign b) (fpMag a * fpMag b) (2 ^ 149) (mul32 nan a b) := by
  rw [mul32_of_isFinite ha hb]
  exact roundsTo_roundMag _ _ _ (Nat.two_pow_pos _)

theorem add32_roundsTo (h : fpScaled a + fpScaled b ≠ 0) :
    RoundsTo (decide (fpScaled a + fpScaled b < 0)) (fpScaled a + fpScaled b).natAbs 1 (add32 nan a b) := by
  rw [add32_of_isFinite ha hb, if_neg h]
  exact roundsTo_roundMag _ _ _ Nat.one_pos

theorem add32_exact_zero (h : fpScaled a + fpScaled b = 0) :
    add32 nan a b = if fpSign a = true ∧ fpSign b = true then 0x80000000 else 0x00000000 := by
  simp only [add32_of_isFinite ha hb, if_pos h, fpPattern_zero, Bool.and_eq_true]

theorem sub32_roundsTo (h : fpScaled a - fpScaled b ≠ 0) :
    RoundsTo (decide (fpScaled a - fpScaled b < 0)) (fpScaled a - fpScaled b).natAbs 1 (sub32 nan a b) := by
  rw [Int.sub_eq_add_neg, ← fpScaled_fpNeg] at h ⊢
  exact add32_roundsTo ha (fpIsFinite_fpNeg hb) h

theorem sub32_exact_zero (h : fpScaled a - fpScaled b = 0) :
    sub32 nan a b = if fpSign a = true ∧ fpSign b = false then 0x80000000 else 0x00000000 := by
  rw [Int.sub_eq_add_neg, ← fpScaled_fpNeg] at h
  simp only [sub32, add32_exact_zero ha (fpIsFinite_fpNeg hb) h, fpSign_fpNeg, Bool.not_eq_true']

theorem div32_roundsTo (hz : ¬ fpIsZero b) :
    RoundsTo (fpSign a != fpSign b) (fpMag a * 2 ^ 149) (fpMag b) (div32 nan a b) := by
  rw [div32_of_isFinite ha hb hz]
  exact roundsTo_roundMag _ _ _ (fpMag_pos_of_not_isZero hz)

end

theorem f32OfInt_roundsTo (i : Int) : RoundsTo (decide (i < 0)) (i.natAbs * 2 ^ 149) 1 (f32OfInt i) :=
  roundsTo_roundMag _ _ _ Nat.one_pos

/-- Settles O59: every operation is its exact integer result passed once through `roundMag`, which `roundsTo_roundMag`
proves correct; a difference is the sum with the negated operand. -/
theorem roundingIsNearestEven : Obligations.RoundingIsNearestEven :=
  ⟨roundsTo_roundMag,
    fun _ _ _ ha hb =>
      ⟨mul32_roundsTo ha hb, add32_roundsTo ha hb, add32_exact_zero ha hb, sub32_roundsTo ha hb,
        sub32_exact_zero ha hb, div32_roundsTo ha hb⟩,
    f32OfInt_roundsTo⟩

end Sys2Proof.Machine
end

section
/-! PROOF of the statements about the state (10_state.md): what every step keeps of the variant, the gains and the state of
the link (O33, O54), and the invariant `Sound` (O57, O58). -/

namespace Sys2Proof.Machine

/-! ## What an operation keeps -/

/-- The variant and the lengths of the buffers, which no step changes in a sound state (R40 to R45). -/
structure Shape where
  variant : SfVariant
  paybuf : Nat
  txbuf : Nat
  rxbuf : Nat
  respbuf : Nat

def State.shape (s : State) : Shape :=
  ⟨s.variant, s.paybuf.length, s.txbuf.length, s.rxbuf.length, s.respbuf.length⟩

/-- The gain matrices (R38). -/
structure Gains where
  k9 : Vector (Vector Word 9) 4
  k6 : Vector (Vector Word 6) 4

def State.gains (s : State) : Gains := ⟨s.k9, s.k6⟩

/-- What only SFCYCLE, the LH step and the reset input change: the watchdog, the latest safe control and its iteration
count, and the outbound sequence (R27, R29, R31, R36, R196). -/
structure Link where
  ready : Bool
  missed : Word
  usf : Vector Word 4
  iters : Half
  events : List OutEvent

def State.link (s : State) : Link := ⟨s.ready, s.missed, s.usf, s.iters, s.events⟩

/-- The shape, the gains and the link are those of the state before. -/
structure Kept (s t : State) : Prop where
  shape : t.shape = s.shape
  gains : t.gains = s.gains
  link : t.link = s.link

theorem Kept.trans {s t r : State} (h : Kept s t) (h' : Kept t r) : Kept s r :=
  ⟨h'.shape.trans h.shape, h'.gains.trans h.gains, h'.link.trans h.link⟩

theorem Kept.finish {s t : State} (h : Kept s t) (c : ResultCode) : Kept s (finish c t) := h.trans ⟨rfl, rfl, rfl⟩

theorem kept_raiseBit (b : StickyBit) (s : State) : Kept s (raiseBit b s) := ⟨rfl, rfl, rfl⟩

theorem kept_fail (c : ResultCode) (b : StickyBit) (s : State) : Kept s (fail c b s) := (kept_raiseBit b s).finish c

theorem kept_writeD (i : DReg) (v : Word) (s : State) : Kept s (writeD i v s) := ⟨rfl, rfl, rfl⟩

theorem kept_noteRange (r : Bool) (s : State) : Kept s (noteRange r s) := by
  cases r <;> exact ⟨rfl, rfl, rfl⟩

/-- New bytes in PAYBUF, as many as before. -/
theorem kept_paybuf {s : State} {buf : List Byte} (h : buf.length = s.paybuf.length) :
    Kept s { s with paybuf := buf } := ⟨by simp only [State.shape, h], rfl, rfl⟩

theorem kept_storeCompressed (off : Nat) (w : Word) (s : State) : Kept s (storeCompressed off w s) :=
  (kept_paybuf (length_putLe16 _ _ _)).trans (kept_noteRange _ _)

theorem kept_framed (size : Nat) (s : State) : Kept s { s with txbuf := framed size s.paybuf s.txbuf } :=
  ⟨by simp only [State.shape, length_framed], rfl, rfl⟩

theorem kept_unpacked (s : State) : Kept s (unpacked s) :=
  ⟨by simp only [State.shape, length_unpacked_rxbuf, length_unpacked_respbuf]; rfl, rfl, rfl⟩

theorem kept_receiveByte (k : Nat) (b : Byte) (s : State) : Kept s (receiveByte k b s) := by
  unfold receiveByte
  split
  · exact ⟨by simp only [State.shape, length_setByte], rfl, rfl⟩
  · exact ⟨rfl, rfl, rfl⟩

/-- A bus write reaches the bytes of PAYBUF, but neither a gain nor the link (R39, R64). -/
theorem kept_writeReg (r : BusReg) (v : Word) (s : State) : Kept s (writeReg r v s) := by
  cases r with
  | paybuf w => exact kept_paybuf (length_setBufferWord _ _ _)
  | _ => exact ⟨rfl, rfl, rfl⟩

theorem writeGain_shape (bank : Bank) (i : Fin 4) (j : Nat) (v : Word) (s : State) :
    (writeGain bank i j v s).shape = s.shape := by cases bank <;> rfl

theorem writeGain_link (bank : Bank) (i : Fin 4) (j : Nat) (v : Word) (s : State) :
    (writeGain bank i j v s).link = s.link := by cases bank <;> rfl

/-! ## What a command and a step can do -/

/-- A command keeps all this, or is a SETK, or a safety-filter cycle. -/
inductive ExecEffect (i : Instr) (s t : State) : Prop where
  | kept (h : Kept s t)
  | setk (bank : Bank) (row : Fin 4) (col : Nat) (rs : DReg) (hi : i = .setk bank row col rs)
      (hs : t.shape = s.shape) (hl : t.link = s.link)
  | sfcycle (hi : i = .sfcycle) (ht : t = safetyCycle s)

theorem exec_effect {i : Instr} {s t : State} (h : exec i s = .next t) : ExecEffect i s t := by
  cases i <;> injection h with h <;> subst h
  case nop => exact .kept ⟨rfl, rfl, rfl⟩
  case cmp rd rs => exact .kept (((kept_noteRange _ s).trans (kept_writeD rd _ _)).finish .ok)
  case exp rd rs => exact .kept ((kept_writeD rd _ s).finish .ok)
  case cmpst off rs =>
    split
    · exact .kept ((kept_storeCompressed off _ s).finish .ok)
    · exact .kept (kept_fail _ _ s)
  case ldexp rd off =>
    split
    · exact .kept ((kept_writeD rd _ s).finish .ok)
    · exact .kept (kept_fail _ _ s)
  case pack size =>
    rcases pack_cases size s with ⟨-, hp⟩ | ⟨-, hp⟩ <;> rw [hp]
    · exact .kept ((kept_framed size s).finish .ok)
    · exact .kept (kept_fail _ _ s)
  case unpack =>
    rcases unpack_cases s with ⟨-, hu⟩ | ⟨-, hu⟩ <;> rw [hu]
    · exact .kept ((kept_unpacked s).finish .ok)
    · exact .kept (kept_fail _ _ s)
  case clrpay => exact .kept ((kept_paybuf (length_clearBytes s.paybuf)).finish .ok)
  case matvec => exact .kept ⟨rfl, rfl, rfl⟩
  case setk bank row col rs =>
    split
    · exact .setk bank row col rs rfl (writeGain_shape bank row col _ s) (writeGain_link bank row col _ s)
    · exact .kept (kept_fail _ _ s)
  case setmode lqr6 => exact .kept ⟨rfl, rfl, rfl⟩
  case sfcycle => exact .sfcycle rfl rfl

/-- A step keeps all this, or is a SETK, a safety-filter cycle, an LH step or the reset input; `r` is the state these act
on, the step taken off the pending ones and a CMD write acknowledged. -/
inductive StepEffect (s t : State) : Prop where
  | kept (h : Kept s t)
  | setk (bank : Bank) (row : Fin 4) (col : Nat) (rs : DReg) (hn : NextCommand s (.setk bank row col rs))
      (hs : t.shape = s.shape) (hl : t.link = s.link)
  | sfcycle (r : State) (hn : NextCommand s .sfcycle) (hr : Kept s r) (ht : t = safetyCycle r)
  | linkHandler (r : State) (hr : Kept s r) (ht : t = linkHandlerStep r)
  | reset (r : State) (hn : NextReset s) (hr : Kept s r) (ht : t = resetInput r)

theorem step_effect {s t : State} (h : step s = .next t) : StepEffect s t := by
  rcases step_cases s t h with ⟨-, ht⟩ | ⟨e, rest, hs, hc⟩
  · exact .linkHandler s ⟨rfl, rfl, rfl⟩ ht
  have hr : Kept s { s with inputs := rest } := ⟨rfl, rfl, rfl⟩
  have hw : Kept s { s with inputs := rest, response := .done } := ⟨rfl, rfl, rfl⟩
  cases hc with
  | command w i he hd ht =>
    have hn : NextCommand s i := ⟨w, rest, he ▸ hs, hd⟩
    cases exec_effect ht with
    | kept h => exact .kept (hw.trans h)
    | setk bank row col rs hi hsh hl => exact .setk bank row col rs (hi ▸ hn) hsh hl
    | sfcycle hi ht => exact .sfcycle _ (hi ▸ hn) hw ht
  | illegal w why he hd ht => subst ht; exact .kept (hw.trans (kept_fail _ _ _))
  | write off v he ha hreg ht => subst ht; exact .kept (hw.trans (kept_writeReg _ _ _))
  | answer resp ht => subst ht; exact .kept ⟨rfl, rfl, rfl⟩
  | receiveByte k b he ht => subst ht; exact .kept (hr.trans (kept_receiveByte _ _ _))
  | receiveNotify he ht => subst ht; exact .kept ⟨rfl, rfl, rfl⟩
  | linkHandler he ht => exact .linkHandler _ hr ht
  | reset he ht => exact .reset _ ⟨rest, he ▸ hs⟩ hr ht

/-! ## The shape and the gains after a safety-filter cycle and an LH step -/

theorem sendRequest_shape (s : State) : (sendRequest s).shape = s.shape := by
  simp [sendRequest_eq, State.shape, requestPacket, requestPayload]

theorem sendRequest_gains (s : State) : (sendRequest s).gains = s.gains := by
  rw [sendRequest_eq]; rfl

theorem safetyCycle_shape (s : State) : (safetyCycle s).shape = s.shape := by
  rcases safetyCycle_cases s with ⟨-, h⟩ | ⟨-, -, h⟩ | ⟨-, -, -, h⟩ | ⟨-, -, -, h⟩ <;> rw [h]
  exacts [rfl, sendRequest_shape s, rfl, rfl]

theorem safetyCycle_gains (s : State) : (safetyCycle s).gains = s.gains := by
  rcases safetyCycle_cases s with ⟨-, h⟩ | ⟨-, -, h⟩ | ⟨-, -, -, h⟩ | ⟨-, -, -, h⟩ <;> rw [h]
  exacts [rfl, sendRequest_gains s, rfl, rfl]

theorem acceptPacket_shape (s : State) : (acceptPacket s).shape = s.shape := by
  rcases acceptPacket_cases s with ⟨-, -, h⟩ | ⟨-, h⟩ <;> rw [h] <;> rfl

theorem acceptPacket_gains (s : State) : (acceptPacket s).gains = s.gains := by
  rcases acceptPacket_cases s with ⟨-, -, h⟩ | ⟨-, h⟩ <;> rw [h] <;> rfl

theorem linkHandlerStep_shape (s : State) : (linkHandlerStep s).shape = s.shape := by
  rcases linkHandlerStep_cases s with ⟨-, h⟩ | ⟨-, -, h⟩ | ⟨-, -, h⟩ <;> rw [h]
  · rfl
  · exact (acceptPacket_shape _).trans (kept_unpacked { s with notify := false }).shape

theorem linkHandlerStep_gains (s : State) : (linkHandlerStep s).gains = s.gains := by
  rcases linkHandlerStep_cases s with ⟨-, h⟩ | ⟨-, -, h⟩ | ⟨-, -, h⟩ <;> rw [h]
  · rfl
  · exact (acceptPacket_gains _).trans (kept_unpacked { s with notify := false }).gains

/-- No step of any agent changes the variant: it is fixed for the life of the block (R22, R45). -/
theorem step_variant {s t : State} (h : step s = .next t) : t.variant = s.variant := by
  cases step_effect h with
  | kept h => exact congrArg Shape.variant h.shape
  | setk _ _ _ _ _ hs _ => exact congrArg Shape.variant hs
  | sfcycle r _ hr ht => exact congrArg Shape.variant (ht ▸ (safetyCycle_shape r).trans hr.shape)
  | linkHandler r hr ht => exact congrArg Shape.variant (ht ▸ (linkHandlerStep_shape r).trans hr.shape)
  | reset r _ hr ht => exact ht ▸ congrArg Shape.variant hr.shape

theorem step_gains {s t : State} (h : step s = .next t) (hr : ¬ NextReset s)
    (hk : ∀ bank i j rs, ¬ NextCommand s (.setk bank i j rs)) : t.gains = s.gains := by
  cases step_effect h with
  | kept h => exact h.gains
  | setk bank row col rs hn _ _ => exact absurd hn (hk bank row col rs)
  | sfcycle r _ hr ht => exact ht ▸ (safetyCycle_gains r).trans hr.gains
  | linkHandler r hr ht => exact ht ▸ (linkHandlerStep_gains r).trans hr.gains
  | reset r hn _ _ => exact absurd hn hr

/-- Settles O33: of the five things a step can do, only SETK and the reset input reach the gains. -/
theorem onlySetkWritesGains : Obligations.OnlySetkWritesGains := fun _ _ h hr hk =>
  have hg := step_gains h hr hk
  ⟨congrArg Gains.k9 hg, congrArg Gains.k6 hg⟩

/-- Settles O54: the word is computed from the variant, which every step keeps. -/
theorem configIsFixed : Obligations.ConfigIsFixed := by
  constructor
  · intro s
    simp only [readReg]
    cases s.variant <;> rfl
  · intro s t h
    simp only [readReg, step_variant h]

/-! ## The invariant -/

theorem BuffersFit.of_shape {s t : State} (hs : BuffersFit s) (h : t.shape = s.shape) : BuffersFit t := by
  obtain ⟨hv, hp, hx, hr, hq⟩ := Shape.mk.inj h
  exact ⟨by rw [hp, hv, hs.paybuf], by rw [hx, hv, hs.txbuf], by rw [hr, hv, hs.rxbuf], by rw [hq, hv, hs.respbuf]⟩

theorem OutboundSound.append {s t : State} {e : OutEvent} (hs : OutboundSound s) (hv : t.variant = s.variant)
    (he : EventSound s.variant e) (h : t.events = s.events ++ [e]) : OutboundSound t := by
  refine ⟨by rw [hv, h]; exact hs.started.trans (List.prefix_append _ _), fun e' hm => ?_⟩
  rw [h, List.mem_append, List.mem_singleton] at hm
  rw [hv]
  rcases hm with hm | rfl
  · exact hs.sound e' hm
  · exact he

theorem OutboundSound.of_events {s t : State} (hs : OutboundSound s) (hv : t.variant = s.variant)
    (h : t.events = s.events) : OutboundSound t :=
  ⟨by rw [hv, h]; exact hs.started, by rw [hv, h]; exact hs.sound⟩

/-- `Sound` reads the shape and the link only. -/
theorem Sound.of_shape_link {s t : State} (hs : Sound s) (h : t.shape = s.shape) (hl : t.link = s.link) : Sound t := by
  have hv : t.variant = s.variant := congrArg Shape.variant h
  obtain ⟨hready, hmissed, husf, hiters, hevents⟩ := Link.mk.inj hl
  refine ⟨hs.buffers.of_shape h, ⟨?_, ?_⟩, hs.outbound.of_events hv hevents, ?_, ?_⟩
  · rw [hmissed]; exact hs.watchdog.bound
  · rw [hready, hmissed]; exact hs.watchdog.awaiting
  · rw [hv, hiters]; exact hs.iters
  · rw [hv, hready, hmissed, husf]; exact hs.disabled

theorem Sound.of_kept {s t : State} (hs : Sound s) (h : Kept s t) : Sound t := hs.of_shape_link h.shape h.link

theorem variant_ne_disabled_of_sfActive {s : State} (h : sfActive s = true) : s.variant ≠ .disabled := by
  intro hv
  simp [sfActive, hv] at h

/-- A step taken with the filter active, which is not in DISABLED (R180): the watchdog and the outbound sequence are left
to show. -/
theorem Sound.of_active {s t : State} (hs : Sound s) (ha : sfActive s = true) (h : t.shape = s.shape)
    (hw : WatchdogSound t) (ho : OutboundSound t) (hi : s.variant ≠ .attIt → t.iters = s.iters) : Sound t := by
  have hv : t.variant = s.variant := congrArg Shape.variant h
  refine ⟨hs.buffers.of_shape h, hw, ho, fun hne => ?_, fun hd => ?_⟩
  · rw [hv] at hne
    rw [hi hne, hs.iters hne]
  · exact absurd (hv ▸ hd) (variant_ne_disabled_of_sfActive ha)

/-- The count of misses grows by at most one (R29). -/
theorem countMiss_le (s : State) : (countMiss s).missed.toNat ≤ s.missed.toNat + 1 := by
  unfold countMiss
  dsimp only
  split
  · exact Nat.le_succ _
  · rw [BitVec.toNat_add]; exact Nat.mod_le _ _

/-- The packet SFCYCLE sends has PKT_LEN bytes and the header (R124, R195). -/
theorem requestPacket_sound {s : State} (hb : BuffersFit s) (hv : s.variant ≠ .disabled) :
    EventSound s.variant (.linkSend (pktLen s) (requestPacket s)) := by
  have hpos : 0 < s.txbuf.length := by rw [hb.txbuf, SfVariant.pktLen]; omega
  exact ⟨hv, rfl, (length_framed _ _ _).trans hb.txbuf, by rw [requestPacket, byteAt_framed _ _ _ _ hpos]; rfl⟩

theorem safetyCycle_sound {s : State} (hs : Sound s) : Sound (safetyCycle s) := by
  have hsh := safetyCycle_shape s
  rcases safetyCycle_cases s with ⟨-, h⟩ | ⟨ha, -, h⟩ | ⟨ha, hr, -, h⟩ | ⟨ha, hr, hle, h⟩ <;> rw [h] at hsh ⊢
  · exact hs.of_shape_link hsh rfl
  · rw [sendRequest_eq] at hsh ⊢
    have he := requestPacket_sound hs.buffers (variant_ne_disabled_of_sfActive ha)
    exact hs.of_active ha hsh ⟨Nat.zero_le _, fun _ => Nat.zero_le _⟩ (hs.outbound.append rfl he rfl) fun _ => rfl
  · have hm : (countMiss s).missed.toNat ≤ Config.thresh + 1 :=
      (countMiss_le s).trans (Nat.succ_le_succ (hs.watchdog.awaiting hr))
    exact hs.of_active ha hsh ⟨hm, fun hf => nomatch hf⟩ (hs.outbound.of_events rfl rfl) fun _ => rfl
  · exact hs.of_active ha hsh ⟨Nat.le_succ_of_le hle, fun _ => hle⟩ (hs.outbound.of_events rfl rfl) fun _ => rfl

theorem acceptPacket_sound {s : State} (hs : Sound s) : Sound (acceptPacket s) := by
  have hsh := acceptPacket_shape s
  rcases acceptPacket_cases s with ⟨-, ha, h⟩ | ⟨-, h⟩ <;> rw [h] at hsh ⊢
  · exact hs.of_active ha hsh ⟨Nat.zero_le _, fun _ => Nat.zero_le _⟩ (hs.outbound.of_events rfl rfl)
      fun hv => if_neg hv
  · exact hs.of_shape_link hsh rfl

theorem rejectPacket_sound {s : State} (hs : Sound s) : Sound (rejectPacket s) :=
  have he : EventSound s.variant (.linkResync (pktLen s)) := rfl
  ⟨hs.buffers.of_shape rfl, ⟨hs.watchdog.bound, hs.watchdog.awaiting⟩, hs.outbound.append rfl he rfl, hs.iters,
    hs.disabled⟩

theorem linkHandlerStep_sound {s : State} (hs : Sound s) : Sound (linkHandlerStep s) := by
  have hn : Sound { s with notify := false } := hs.of_kept ⟨rfl, rfl, rfl⟩
  rcases linkHandlerStep_cases s with ⟨-, h⟩ | ⟨-, -, h⟩ | ⟨-, -, h⟩ <;> rw [h]
  · exact hs
  · exact rejectPacket_sound hn
  · exact acceptPacket_sound (hn.of_kept (kept_unpacked _))

/-- LinkStart, where the variant has a link, is a sound event (R197). -/
theorem startEvents_sound (v : SfVariant) : ∀ e ∈ startEvents v, EventSound v e := by
  intro e he
  by_cases hv : v = .disabled
  · simp [startEvents, hv] at he
  · obtain rfl : e = .linkStart Config.baud v.pktLen := by simpa [startEvents, hv] using he
    exact ⟨hv, rfl, rfl⟩

theorem powerOn_sound (v : SfVariant) : Sound (State.powerOn v) where
  buffers := ⟨List.length_replicate, List.length_replicate, List.length_replicate, List.length_replicate⟩
  watchdog := ⟨Nat.zero_le _, fun _ => Nat.zero_le _⟩
  outbound := ⟨List.prefix_refl _, startEvents_sound v⟩
  iters _ := rfl
  disabled _ := ⟨rfl, rfl, rfl⟩

theorem resetInput_sound (s : State) : Sound (resetInput s) :=
  (powerOn_sound s.variant).of_kept ⟨rfl, rfl, rfl⟩

/-- Settles O57: a block of every variant leaves reset sound. -/
theorem resetIsSound : Obligations.ResetIsSound := powerOn_sound Config.sfVariant

/-- Settles O58: the invariant reads the shape and the link only, so SFCYCLE, the LH step and the reset input are left to
check of the five things a step can do. -/
theorem everyStepKeepsSound : Obligations.EveryStepKeepsSound := by
  intro s t hs h
  cases step_effect h with
  | kept h => exact hs.of_kept h
  | setk _ _ _ _ _ hsh hl => exact hs.of_shape_link hsh hl
  | sfcycle r _ hr ht => exact ht ▸ safetyCycle_sound (hs.of_kept hr)
  | linkHandler r hr ht => exact ht ▸ linkHandlerStep_sound (hs.of_kept hr)
  | reset r _ _ ht => exact ht ▸ resetInput_sound r

/-! ## MODE and STATUS -/

/-- The bits of the STATUS word (R24). -/
theorem getLsbD_statusWord (s : State) (n : Nat) :
    (statusWord s).getLsbD n =
      if n < 7 then s.sticky.getLsbD n else if n = 16 then s.ready else if n = 17 then s.notify else false := by
  simp only [statusWord, BitVec.getLsbD_or, BitVec.getLsbD_setWidth, BitVec.getLsbD_shiftLeft, BitVec.getLsbD_ofBool]
  split
  · next h =>
    simp [h, show n < 16 by omega, show n < 17 by omega, show n < 32 by omega]
  · next h =>
    have hb : s.sticky.getLsbD n = false := BitVec.getLsbD_of_ge _ _ (by omega)
    split
    · next h16 => simp [h16]
    · split
      · next h17 => simp [h17]
      · next h17 =>
        simp [hb]
        omega

/-- A STATUS write clears the bits of the written word and no others (R24). -/
theorem getLsbD_clearStatus_sticky (v : Word) (s : State) (n : Nat) (h : n < 7) :
    (clearStatus v s).sticky.getLsbD n = (s.sticky.getLsbD n && !v.getLsbD n) := by
  simp [clearStatus, h]

/-- MODE reads bit 0 of the word written and zero above it (R23). -/
theorem modeWord_writeReg (v : Word) (s : State) : modeWord (writeReg .mode v s) = v &&& 0x00000001 :=
  (BitVec.and_one_eq_setWidth_ofBool_getLsbD).symm

/-- Settles O52: the two registers stand at 0x004 and 0x008, and the STATUS word is read bit by bit. -/
theorem modeAndStatusWrites : Obligations.ModeAndStatusWrites := by
  intro s v
  refine ⟨⟨_, rfl, rfl, modeWord_writeReg v _⟩, _, rfl, rfl, fun n _ => ?_⟩
  change (statusWord (clearStatus v { s with response := .done })).getLsbD n =
    if n < 7 then (statusWord s).getLsbD n && !v.getLsbD n else _
  rw [getLsbD_statusWord, getLsbD_statusWord]
  split
  · next h => rw [getLsbD_clearStatus_sticky v _ n h]
  · rfl

end Sys2Proof.Machine
end

section
/-! PROOF of the statements about the register window (20_memory.md): the register map and its inverse (O47), bus
accesses (O48 to O51, O53), and the command a CMD write executes (O6). -/

namespace Sys2Proof.Machine

/-! ## The register map and its inverse -/

/-- The offset a register stands at (R61); a reserved offset has no register, and stands for the end of the window. -/
def BusReg.place : BusReg → Nat
  | .config => 0x000
  | .mode => 0x004
  | .status => 0x008
  | .cmd => 0x00C
  | .result => 0x010
  | .lhres => 0x014
  | .missed => 0x018
  | .rate => 0x01C
  | .iters => 0x020
  | .d i => 0x040 + 4 * i.val
  | .err j => 0x080 + 4 * j.val
  | .ff i => 0x0B0 + 4 * i.val
  | .u i => 0x0C0 + 4 * i.val
  | .usf i => 0x0D0 + 4 * i.val
  | .sv k => 0x100 + 4 * k.val
  | .k9 i j => 0x200 + 4 * (9 * i.val + j.val)
  | .k6 i j => 0x300 + 4 * (6 * i.val + j.val)
  | .paybuf w => 0x400 + 4 * w.val
  | .txbuf w => 0x440 + 4 * w.val
  | .rxbuf w => 0x480 + 4 * w.val
  | .respbuf w => 0x4C0 + 4 * w.val
  | .reserved => 0x800

/-- The map finds every register at its place. -/
theorem regAt_place (r : BusReg) : regAt r.place = r := by
  cases r with
  | d i | err i | ff i | u i | usf i | sv i => revert i; decide
  | k9 i j | k6 i j => revert i j; decide
  | paybuf w | txbuf w | rxbuf w | respbuf w => revert w; decide
  | _ => rfl

/-- What a row of the map finds stands at the word of the offset. -/
def Placed (off : Nat) (found : Option BusReg) : Prop := ∀ r, found = some r → r.place = 4 * (off / 4)

theorem Placed.orElse {off : Nat} {a b : Option BusReg} (ha : Placed off a) (hb : Placed off b) :
    Placed off (a <|> b) := fun r h =>
  ((orElse_eq_some a b r).mp h).elim (ha r) fun h => hb r h.2

theorem placed_single {base : Nat} {r : BusReg} (off : Nat) (hr : r.place = base) (hb : base % 4 = 0) :
    Placed off (single base r off) := by
  intro x h
  obtain ⟨rfl, rfl⟩ := (single_eq_some _ _ _ _).mp h
  omega

theorem placed_slot {base n : Nat} {f : Fin n → BusReg} (off : Nat) (hf : ∀ i, (f i).place = base + 4 * i.val)
    (hb : base % 4 = 0) : Placed off ((slot base n off).map f) := by
  intro x h
  obtain ⟨i, hi, rfl⟩ := Option.map_eq_some_iff.mp h
  obtain ⟨hlo, -, hval⟩ := slot_eq_some hi
  rw [hf, hval]
  omega

theorem place_gain9Reg (n : Fin 36) : (gain9Reg n).place = 0x200 + 4 * n.val := by
  simp only [gain9Reg, BusReg.place, Nat.div_add_mod]

theorem place_gain6Reg (n : Fin 24) : (gain6Reg n).place = 0x300 + 4 * n.val := by
  simp only [gain6Reg, BusReg.place, Nat.div_add_mod]

/-- Row by row of the map: a register found at an offset has its place in that word. -/
theorem place_regAt {off : Nat} (h : regAt off ≠ .reserved) : (regAt off).place = 4 * (off / 4) := by
  generalize hr : regAt off = r at h
  rw [regAt, getD_eq_of_ne _ _ _ h.symm] at hr
  refine (?_ : Placed off _) r hr
  iterate 9 refine Placed.orElse (placed_single off rfl rfl) ?_
  iterate 6 refine Placed.orElse (placed_slot off (fun _ => rfl) rfl) ?_
  refine Placed.orElse (placed_slot off place_gain9Reg rfl) ?_
  refine Placed.orElse (placed_slot off place_gain6Reg rfl) ?_
  iterate 3 refine Placed.orElse (placed_slot off (fun _ => rfl) rfl) ?_
  exact placed_slot off (fun _ => rfl) rfl

/-- An offset with a register, at a multiple of 4, is that register's place. -/
theorem place_of_regAt {off : Nat} {r : BusReg} (ha : off % 4 = 0) (hr : regAt off = r) (h : r ≠ .reserved) :
    r.place = off := by
  subst hr
  have hp := place_regAt h
  omega

/-- No register stands at two offsets. -/
theorem regAt_inj {off off' : Nat} (ha : off % 4 = 0) (ha' : off' % 4 = 0) (h : regAt off ≠ .reserved)
    (heq : regAt off' = regAt off) : off' = off :=
  (place_of_regAt ha' heq h).symm.trans (place_of_regAt ha rfl h)

/-- No register reaches into the gaps of the map (R61). -/
theorem regAt_gap {off : Nat}
    (h : (0x024 ≤ off ∧ off < 0x040) ∨ (0x0A4 ≤ off ∧ off < 0x0B0) ∨ (0x0E0 ≤ off ∧ off < 0x100) ∨
      (0x124 ≤ off ∧ off < 0x200) ∨ (0x290 ≤ off ∧ off < 0x300) ∨ (0x360 ≤ off ∧ off < 0x400) ∨
      (0x414 ≤ off ∧ off < 0x440) ∨ (0x458 ≤ off ∧ off < 0x480) ∨ (0x498 ≤ off ∧ off < 0x4C0) ∨
      (0x4D4 ≤ off ∧ off < 0x800)) : regAt off = .reserved := by
  by_contra hne
  have hp := place_regAt hne
  cases hr : regAt off with
  | reserved => exact hne hr
  | _ =>
    simp only [hr, BusReg.place] at hp
    omega

/-- Settles O47: every register stands at its place, and the gaps lie apart from all places. -/
theorem registerMapPlaces : Obligations.RegisterMapPlaces :=
  ⟨regAt_place .config, regAt_place .mode, regAt_place .status, regAt_place .cmd, regAt_place .result,
    regAt_place .lhres, regAt_place .missed, regAt_place .rate, regAt_place .iters, fun i => regAt_place (.d i),
    fun j => regAt_place (.err j), fun i => ⟨regAt_place (.ff i), regAt_place (.u i), regAt_place (.usf i)⟩,
    fun k => regAt_place (.sv k), fun i j => regAt_place (.k9 i j), fun i j => regAt_place (.k6 i j),
    fun w => ⟨regAt_place (.paybuf w), regAt_place (.respbuf w)⟩,
    fun w => ⟨regAt_place (.txbuf w), regAt_place (.rxbuf w)⟩, fun _ h => regAt_gap h⟩

/-! ## Accesses -/

theorem step_cons {s : State} {e : Input} {rest : List Input} (h : s.inputs = e :: rest) :
    step s = runInput e { s with inputs := rest } := by
  rw [step, nextStep, h]

theorem busRead_accepted {off : Offset} (ha : off.toNat % 4 = 0) (s : State) :
    busRead .word off s = { s with response := .data (readReg (regAt off.toNat) s) } := by
  rw [busRead, if_pos ⟨rfl, ha⟩]

/-- A write accepted anywhere but at CMD reaches the register of its offset (R64). -/
theorem busWrite_of_ne_cmd {off : Offset} (ha : off.toNat % 4 = 0) (hc : regAt off.toNat ≠ .cmd) (v : Word) (s : State) :
    busWrite .word off v s = .next (writeReg (regAt off.toNat) v { s with response := .done }) := by
  rw [busWrite, if_pos ⟨rfl, ha⟩, if_neg hc]

/-- Settles O48: a refused access only sets the response, whichever way it goes. -/
theorem badAccessGetsAnErrorResponse : Obligations.BadAccessGetsAnErrorResponse := by
  intro s width off rest hbad
  have hna : ¬ accepted width off := fun ⟨hw, ha⟩ => hbad.elim (· hw) (· ha)
  refine ⟨fun h => ?_, fun v h => ?_⟩
  · rw [step_cons h, runInput, busRead, if_neg hna]
  · rw [step_cons h, runInput, busWrite, if_neg hna]

/-! ## The commands of CMD writes -/

/-- Every operand is read from a field of its own width (R92). -/
theorem wellFormed_operandsOf (o : Opcode) (w : Word) : (operandsOf o w).WellFormed := by
  cases o with
  | cmpst | ldexp => exact Nat.le_of_lt_succ (w.extractLsb' 0 5).isLt
  | pack => exact Nat.le_of_lt_succ (w.extractLsb' 0 8).isLt
  | setk => exact Nat.le_of_lt_succ (w.extractLsb' 0 4).isLt
  | _ => trivial

theorem wellFormed_of_decode {w : Word} {i : Instr} (h : decode w = .command i) : i.WellFormed := by
  unfold decode at h
  split at h
  · next o _ => injection h with h; exact h ▸ wellFormed_operandsOf o w
  · cases h

theorem runCommand_of_decode {w : Word} {i : Instr} (h : decode w = .command i) (s : State) :
    runCommand w s = exec i s := by
  rw [runCommand, h]

/-- Settles O6: the step of a CMD write is `runCommand`, which runs what the word decodes to. -/
theorem stepRunsDecodedCommand : Obligations.StepRunsDecodedCommand := fun s _ w rest hs hd =>
  ⟨wellFormed_of_decode hd, (step_commandInput w rest s hs).trans (runCommand_of_decode hd _)⟩

/-! ## Reads -/

/-- No register of the window shows the pending steps or the latest response (R63). -/
theorem readReg_answer (r : BusReg) (s : State) (rest : List Input) (resp : BusResponse) :
    readReg r { s with inputs := rest, response := resp } = readReg r s := by
  cases r <;> rfl

theorem readReg_iters_toNat (s : State) : (readReg .iters s).toNat = s.iters.toNat :=
  BitVec.toNat_setWidth_of_le (by decide)

/-- Settles O49: an accepted read sets the response only, and each register's value is read off the state. -/
theorem busReadHasNoSideEffect : Obligations.BusReadHasNoSideEffect := by
  refine ⟨fun s off rest hs ha => ⟨?_, ?_⟩, fun s => ⟨?_, ?_, ?_, getLsbD_statusWord s, rfl, rfl, readReg_iters_toNat s,
    fun _ => rfl, fun _ => ⟨rfl, rfl⟩, fun _ => ⟨rfl, rfl, rfl⟩, fun _ _ => rfl, fun _ _ => rfl⟩⟩
  · rw [step_cons hs, runInput, busRead_accepted ha, readReg_answer _ s rest s.response]
  · rintro (h | h) <;> rw [h] <;> rfl
  · rw [readReg]; cases s.result <;> rfl
  · rw [readReg]; cases s.lhres <;> rfl
  · rw [readReg, modeWord]; cases s.lqr6 <;> rfl

/-! ## Writes -/

/-- The registers of R64 that a bus write replaces: D, ERR, FF, U and SV. -/
def BusReg.IsData : BusReg → Prop
  | .d _ | .err _ | .ff _ | .u _ | .sv _ => True
  | _ => False

theorem BusReg.IsData.ne_cmd {r : BusReg} (h : r.IsData) : r ≠ .cmd := by
  rintro rfl
  exact h

theorem BusReg.IsData.ne_reserved {r : BusReg} (h : r.IsData) : r ≠ .reserved := by
  rintro rfl
  exact h

/-- The three ranges of the map that hold the data registers and nothing else. -/
theorem isData_regAt {off : Nat} (ha : off % 4 = 0)
    (h : (0x040 ≤ off ∧ off < 0x0A4) ∨ (0x0B0 ≤ off ∧ off < 0x0D0) ∨ (0x100 ≤ off ∧ off < 0x124)) :
    (regAt off).IsData := by
  suffices hp : ∃ r : BusReg, r.IsData ∧ r.place = off by
    obtain ⟨r, hr, rfl⟩ := hp
    rwa [regAt_place]
  have hsplit : (0x040 ≤ off ∧ off < 0x080) ∨ (0x080 ≤ off ∧ off < 0x0A4) ∨ (0x0B0 ≤ off ∧ off < 0x0C0) ∨
      (0x0C0 ≤ off ∧ off < 0x0D0) ∨ (0x100 ≤ off ∧ off < 0x124) := by omega
  rcases hsplit with h | h | h | h | h
  · exact ⟨.d ⟨(off - 0x040) / 4, by omega⟩, trivial, by simp only [BusReg.place]; omega⟩
  · exact ⟨.err ⟨(off - 0x080) / 4, by omega⟩, trivial, by simp only [BusReg.place]; omega⟩
  · exact ⟨.ff ⟨(off - 0x0B0) / 4, by omega⟩, trivial, by simp only [BusReg.place]; omega⟩
  · exact ⟨.u ⟨(off - 0x0C0) / 4, by omega⟩, trivial, by simp only [BusReg.place]; omega⟩
  · exact ⟨.sv ⟨(off - 0x100) / 4, by omega⟩, trivial, by simp only [BusReg.place]; omega⟩

theorem readReg_writeReg_same {r : BusReg} (hr : r.IsData) (v : Word) (s : State) :
    readReg r (writeReg r v s) = v := by
  cases r with
  | d i | err i | ff i | u i | sv i => exact Vector.getElem_set_self _
  | _ => cases hr

/-- Vectors under a write, in the form the registers are read in. -/
theorem getElem_set_of_ne {n : Nat} {i k : Fin n} (h : k ≠ i) (xs : Vector Word n) (v : Word) :
    (xs.set i.val v i.isLt)[k.val] = xs[k.val] :=
  Vector.getElem_set_ne i.isLt k.isLt fun e => h (Fin.ext e.symm)

/-- A write to one register of a row leaves the others of the row, and every other field. -/
theorem readReg_writeReg_ne {r r' : BusReg} (hr : r.IsData) (h : r' ≠ r) (v : Word) (s : State) :
    readReg r' (writeReg r v s) = readReg r' s := by
  cases r with
  | d i | err i | ff i | u i | sv i =>
    cases r' with
    | d k | err k | ff k | u k | sv k => simp_all [readReg, writeReg, writeD, getElem_set_of_ne]
    | _ => rfl
  | _ => cases hr

theorem writeReg_response (r : BusReg) (v : Word) (s : State) : (writeReg r v s).response = s.response := by
  cases r <;> rfl

theorem writeReg_events (r : BusReg) (v : Word) (s : State) : (writeReg r v s).events = s.events :=
  congrArg Link.events (kept_writeReg r v s).link

/-- Settles O50: the three ranges hold data registers, and no other offset has a register of theirs. -/
theorem dataRegisterWriteReadsBack : Obligations.DataRegisterWriteReadsBack := by
  intro s off v ha hrange
  have hdata := isData_regAt ha hrange
  refine ⟨_, busWrite_of_ne_cmd ha hdata.ne_cmd v s, readReg_writeReg_same hdata v _, writeReg_response _ _ _,
    writeReg_events _ _ _, fun other ha' hne => ?_⟩
  have hreg : regAt other.toNat ≠ regAt off.toNat := fun heq =>
    hne (BitVec.eq_of_toNat_eq (regAt_inj ha ha' hdata.ne_reserved heq))
  exact (readReg_writeReg_ne hdata hreg v _).trans (readReg_answer _ s s.inputs .done)

/-- Settles O51: outside the writable places a write leaves the state with its response. -/
theorem readOnlyWriteIsIgnored : Obligations.ReadOnlyWriteIsIgnored := by
  intro s off v ha hmode hstatus hcmd hlow hmid hsv hpay
  rw [busWrite_of_ne_cmd ha fun h => hcmd (regAt_cmd _ h)]
  cases hr : regAt off.toNat with
  | mode | status | d i | err i | ff i | u i | sv i | paybuf i =>
    have hp := place_of_regAt ha hr (by simp)
    simp only [BusReg.place] at hp
    omega
  | _ => rfl

/-- Byte b of a buffer word (R65): the bytes below it are dropped one by one. -/
theorem extractLsb'_bufferWord (buf : List Byte) (w : Nat) (b : Fin 4) :
    (bufferWord buf w).extractLsb' (8 * b.val) 8 = byteAt buf (4 * w + b.val) := by
  change BitVec.extractLsb' (n := 8 + 8 + 8 + 8) _ _ _ = _
  rw [bufferWord]
  match b with
  | 0 => exact BitVec.extractLsb'_append_eq_right
  | 1 =>
    rw [BitVec.extractLsb'_append_eq_of_le (by decide)]
    exact BitVec.extractLsb'_append_eq_right
  | 2 =>
    rw [BitVec.extractLsb'_append_eq_of_le (by decide), BitVec.extractLsb'_append_eq_of_le (by decide)]
    exact BitVec.extractLsb'_append_eq_right
  | 3 =>
    rw [BitVec.extractLsb'_append_eq_of_le (by decide), BitVec.extractLsb'_append_eq_of_le (by decide),
      BitVec.extractLsb'_append_eq_of_le (by decide)]
    exact BitVec.extractLsb'_eq_self

/-- The word of PAYBUF at its offset in the window (R61). -/
theorem regAt_paybuf (w : Fin 5) : regAt (BitVec.ofNat 11 (0x400 + 4 * w.val)).toNat = .paybuf w := by
  rw [BitVec.toNat_ofNat, Nat.mod_eq_of_lt (by omega)]
  exact regAt_place (.paybuf w)

/-- Settles O53: a PAYBUF write is `setBufferWord`, and a read takes a byte out of `bufferWord`. -/
theorem bufferWordsCarryTheirBytes : Obligations.BufferWordsCarryTheirBytes := by
  refine ⟨fun s w v hfit => ?_, fun s b => ⟨fun w => ?_, fun w => ?_⟩⟩
  · have ha : (BitVec.ofNat 11 (0x400 + 4 * w.val)).toNat % 4 = 0 := by rw [BitVec.toNat_ofNat]; omega
    have hc : regAt (BitVec.ofNat 11 (0x400 + 4 * w.val)).toNat ≠ .cmd := by rw [regAt_paybuf]; simp
    refine ⟨_, busWrite_of_ne_cmd ha hc v s, ?_⟩
    rw [regAt_paybuf, ← hfit.paybuf]
    exact ⟨rfl, length_setBufferWord _ _ _, fun k => byteAt_setBufferWord _ _ _ _⟩
  · exact ⟨extractLsb'_bufferWord _ _ b, extractLsb'_bufferWord _ _ b⟩
  · exact ⟨extractLsb'_bufferWord _ _ b, extractLsb'_bufferWord _ _ b⟩

end Sys2Proof.Machine
end

section
/-! SUPPORT for O1 to O5 (30_encoding.md rules R91, R92, R96, R99): the rows are told apart by their OP field, the decoder
answers the row that matches, and the fields of a word and the places the assembler puts operands in are inverse. -/

namespace Sys2Proof

/-! ## The rows of the opcode map -/

theorem mem_allOpcodes (o : Opcode) : o ∈ allOpcodes := by cases o <;> decide

/-- The OP fields of the table are distinct (R95). -/
theorem eq_of_fieldOp_opcodeMatch_eq {o o' : Opcode} (h : fieldOp (opcodeMatch o) = fieldOp (opcodeMatch o')) : o = o' :=
  have key : ∀ o ∈ allOpcodes, ∀ o' ∈ allOpcodes, fieldOp (opcodeMatch o) = fieldOp (opcodeMatch o') → o = o' := by
    decide
  key o (mem_allOpcodes o) o' (mem_allOpcodes o') h

/-- Every row fixes the whole OP field (R95). -/
theorem fieldOp_opcodeMask (o : Opcode) : fieldOp (opcodeMask o) = BitVec.allOnes 8 := by cases o <;> rfl

theorem fieldOp_of_rowMatches {o : Opcode} {w : Word} (h : rowMatches o w) : fieldOp w = fieldOp (opcodeMatch o) := by
  rw [← h, fieldOp, fieldOp, BitVec.extractLsb'_and, ← fieldOp, ← fieldOp, fieldOp_opcodeMask, BitVec.and_allOnes]

theorem rowMatches_unique {o o' : Opcode} {w : Word} (h : rowMatches o w) (h' : rowMatches o' w) : o' = o :=
  eq_of_fieldOp_opcodeMatch_eq ((fieldOp_of_rowMatches h').symm.trans (fieldOp_of_rowMatches h))

/-- As at most one row matches, the decoder's search finds it wherever it stands in the table. -/
theorem find?_eq_some_iff_rowMatches {o : Opcode} {w : Word} :
    allOpcodes.find? (fun o => decide (rowMatches o w)) = some o ↔ rowMatches o w := by
  have found {o : Opcode} (h : allOpcodes.find? (fun o => decide (rowMatches o w)) = some o) : rowMatches o w := by
    simpa only [decide_eq_true_eq] using List.find?_some h
  refine ⟨found, fun h => ?_⟩
  cases hfind : allOpcodes.find? (fun o => decide (rowMatches o w)) with
  | none => exact absurd (decide_eq_true h) (List.find?_eq_none.mp hfind o (mem_allOpcodes o))
  | some o' => rw [rowMatches_unique h (found hfind)]

theorem decode_of_rowMatches {o : Opcode} {w : Word} (h : rowMatches o w) : decode w = .command (operandsOf o w) := by
  rw [decode, find?_eq_some_iff_rowMatches.mpr h]

theorem decode_of_not_rowMatches {w : Word} (h : ∀ o : Opcode, ¬ rowMatches o w) :
    decode w = .illegal (illegalReason w) := by
  rw [decode, List.find?_eq_none.mpr fun o _ ho => h o (of_decide_eq_true ho)]

theorem rowMatches_of_decode {w : Word} {i : Instr} (h : decode w = .command i) :
    ∃ o, rowMatches o w ∧ operandsOf o w = i := by
  unfold decode at h
  split at h
  · next o ho => exact ⟨o, find?_eq_some_iff_rowMatches.mp ho, Decoded.command.inj h⟩
  · cases h

/-! ## A field put back in its place: the bits of the word under the field's mask -/

theorem shiftLeft_extractLsb' (w : Word) (lo len : Nat) :
    BitVec.ofNat 32 (w.extractLsb' lo len).toNat <<< lo = w &&& ((BitVec.allOnes len).setWidth 32 <<< lo) := by
  rw [BitVec.ofNat_toNat]
  ext i hi
  by_cases h : i < lo
  · simp [h]
  · have hcancel : lo + (i - lo) = i := by omega
    simp [h, BitVec.getLsbD_extractLsb', hcancel, Bool.and_comm, BitVec.getLsbD_eq_getElem hi]

theorem ofNat_extractLsb' (w : Word) (len : Nat) :
    BitVec.ofNat 32 (w.extractLsb' 0 len).toNat = w &&& (BitVec.allOnes len).setWidth 32 := by
  simpa only [BitVec.shiftLeft_zero] using shiftLeft_extractLsb' w 0 len

theorem placeRd_fieldRd (w : Word) : placeRd (fieldRd w) = w &&& 0x00F00000 := shiftLeft_extractLsb' w 20 4

theorem placeRs_fieldRs (w : Word) : placeRs (fieldRs w) = w &&& 0x000F0000 := shiftLeft_extractLsb' w 16 4

theorem ofNat_fieldOff (w : Word) : BitVec.ofNat 32 (fieldOff w) = w &&& 0x1F := ofNat_extractLsb' w 5

theorem ofNat_fieldSize (w : Word) : BitVec.ofNat 32 (fieldSize w) = w &&& 0xFF := ofNat_extractLsb' w 8

theorem ofNat_fieldCol (w : Word) : BitVec.ofNat 32 (fieldCol w) = w &&& 0xF := ofNat_extractLsb' w 4

theorem shiftLeft_fieldRow (w : Word) : BitVec.ofNat 32 (fieldRow w).val <<< 8 = w &&& 0x300 :=
  shiftLeft_extractLsb' w 8 2

theorem placeBank_fieldBank (w : Word) : placeBank (fieldBank w) = w &&& 0x1000 := by
  rw [show (0x1000 : Word) = BitVec.twoPow 32 12 from rfl, BitVec.and_twoPow, fieldBank]
  cases w.getLsbD 12 <;> rfl

theorem encode_setmode_getLsbD (w : Word) : encode (.setmode (w.getLsbD 0)) = 0x12000000 ||| (w &&& 1) := by
  rw [show (1 : Word) = BitVec.twoPow 32 0 from rfl, BitVec.and_twoPow]
  cases w.getLsbD 0 <;> rfl

/-- The assembler's word of a row's operands: the row's fixed bits, and the word's own bits outside the mask (R95, R99). -/
theorem encode_operandsOf (o : Opcode) (w : Word) :
    encode (operandsOf o w) = opcodeMatch o ||| (w &&& ~~~ opcodeMask o) := by
  cases o with
  | nop | unpack | clrpay | matvec | sfcycle => simp [operandsOf, encode, opcodeMatch, opcodeMask]
  | setmode => exact encode_setmode_getLsbD w
  | cmp | exp | cmpst | ldexp | pack | setk =>
    simp only [operandsOf, encode, placeRd_fieldRd, placeRs_fieldRs, ofNat_fieldOff, ofNat_fieldSize,
      ofNat_fieldCol, shiftLeft_fieldRow, placeBank_fieldBank, BitVec.or_assoc, ← BitVec.and_or_distrib_left]
    rfl

/-- The fixed bits of a matching word are the row's, so none of its bits is lost. -/
theorem encode_operandsOf_of_rowMatches {o : Opcode} {w : Word} (h : rowMatches o w) : encode (operandsOf o w) = w := by
  rw [encode_operandsOf, ← h, ← BitVec.and_or_distrib_left, BitVec.or_not_self, BitVec.and_allOnes]

/-! ## A field read from the word: the number placed there, and zero from a number placed above or below it -/

theorem extractLsb'_shiftLeft_same {lo len : Nat} (k : Nat) (h : lo + len ≤ 32) :
    (BitVec.ofNat 32 k <<< lo).extractLsb' lo len = BitVec.ofNat len k := by
  ext i hi
  have hb : lo + i < 32 := by omega
  simp [hb, hi, ← BitVec.getLsbD_eq_getElem, BitVec.getLsbD_ofNat, Nat.lt_of_le_of_lt (Nat.le_add_left i lo) hb]

theorem extractLsb'_shiftLeft_above {pos lo len : Nat} (k : Nat) (h : lo + len ≤ pos) :
    (BitVec.ofNat 32 k <<< pos).extractLsb' lo len = 0#len := by
  ext i hi
  have hb : lo + i < pos := by omega
  simp [hb]

theorem extractLsb'_shiftLeft_below {k pos lo len : Nat} (h : k < 2 ^ (lo - pos)) :
    (BitVec.ofNat 32 k <<< pos).extractLsb' lo len = 0#len := by
  ext i hi
  have hk : k < 2 ^ (lo + i - pos) := h.trans_le (Nat.pow_le_pow_right Nat.two_pos (by omega))
  simp [BitVec.getLsbD_ofNat, Nat.testBit_lt_two_pow hk]

theorem extractLsb'_ofNat_low {k len : Nat} (h : len ≤ 32) : (BitVec.ofNat 32 k).extractLsb' 0 len = BitVec.ofNat len k := by
  simpa using extractLsb'_shiftLeft_same (lo := 0) k (by omega)

theorem extractLsb'_ofNat_below {k lo len : Nat} (h : k < 2 ^ lo) : (BitVec.ofNat 32 k).extractLsb' lo len = 0#len := by
  simpa using extractLsb'_shiftLeft_below (pos := 0) (lo := lo) h

theorem fieldBank_eq_extractLsb' (w : Word) : fieldBank w = if w.extractLsb' 12 1 = 1#1 then .k6 else .k9 := by
  rw [fieldBank, BitVec.getLsbD_eq_extractLsb']
  simp only [beq_iff_eq]

/-- Every field of an assembled word is the OR of what the placed operands hold there, and only one holds anything. -/
theorem operandsOf_encode {i : Instr} (hi : i.WellFormed) : operandsOf (opcodeOf i) (encode i) = i := by
  cases i with
  | nop | unpack | clrpay | matvec | sfcycle => rfl
  | setmode lqr6 => cases lqr6 <;> rfl
  | cmp rd rs | exp rd rs | cmpst off rs | ldexp rd off | pack size =>
    simp (disch := omega) [operandsOf, opcodeOf, encode, fieldRd, fieldRs, fieldOff, fieldSize, placeRd, placeRs,
      BitVec.extractLsb'_or, extractLsb'_shiftLeft_same, extractLsb'_shiftLeft_above, extractLsb'_shiftLeft_below,
      extractLsb'_ofNat_low, extractLsb'_ofNat_below] <;> omega
  | setk bank i j rs =>
    cases bank <;>
      simp (disch := omega) [operandsOf, opcodeOf, encode, fieldBank_eq_extractLsb', fieldRow, fieldCol, fieldRs, placeRs,
        placeBank, BitVec.extractLsb'_or, extractLsb'_shiftLeft_same, extractLsb'_shiftLeft_above,
        extractLsb'_shiftLeft_below, extractLsb'_ofNat_low, extractLsb'_ofNat_below] <;> omega

theorem rowMatches_encode {i : Instr} (hi : i.WellFormed) : rowMatches (opcodeOf i) (encode i) := by
  cases i with
  | nop => exact Laws.EncodesRow.nop hi
  | cmp rd rs => exact Laws.EncodesRow.cmp rd rs hi
  | exp rd rs => exact Laws.EncodesRow.exp rd rs hi
  | cmpst off rs => exact Laws.EncodesRow.cmpst off rs hi
  | ldexp rd off => exact Laws.EncodesRow.ldexp rd off hi
  | pack size => exact Laws.EncodesRow.pack size hi
  | unpack => exact Laws.EncodesRow.unpack hi
  | clrpay => exact Laws.EncodesRow.clrpay hi
  | matvec => exact Laws.EncodesRow.matvec hi
  | setk bank i j rs => exact Laws.EncodesRow.setk bank i j rs hi
  | setmode lqr6 => exact Laws.EncodesRow.setmode lqr6 hi
  | sfcycle => exact Laws.EncodesRow.sfcycle hi

end Sys2Proof
end

section
/-! PROOF of O1 to O5 (30_encoding.md rules R91, R92, R95 to R97, R99). -/

namespace Sys2Proof

/-- Settles O1: the assembler's word is of the command's row, and the row's fields give the operands back. -/
theorem decodeOfEncode : Obligations.DecodeOfEncode := by
  intro i hi
  rw [decode_of_rowMatches (rowMatches_encode hi), operandsOf_encode hi]

/-- Settles O2: a decoded word matches a row, whose fixed bits and operands make up the whole word. -/
theorem encodeOfDecode : Obligations.EncodeOfDecode := by
  intro w i hd
  obtain ⟨o, hrow, rfl⟩ := rowMatches_of_decode hd
  exact ⟨Machine.wellFormed_operandsOf o w, encode_operandsOf_of_rowMatches hrow⟩

/-- Settles O3: the decoder answers the row that matches, of which there is at most one. -/
theorem wordDecodesToItsOneRow : Obligations.WordDecodesToItsOneRow :=
  ⟨fun _ _ h => ⟨decode_of_rowMatches h, fun _ h' => rowMatches_unique h h'⟩,
    fun w h => ⟨illegalReason w, decode_of_not_rowMatches h⟩⟩

/-- Settles O4: each word is the assembler's word of its command. -/
theorem specWordsDecode : Obligations.SpecWordsDecode :=
  ⟨decodeOfEncode .nop trivial, decodeOfEncode (.cmp 1 0) trivial, decodeOfEncode (.exp 3 2) trivial,
    decodeOfEncode (.cmpst 12 4) (by decide), decodeOfEncode (.ldexp 5 4) (by decide),
    decodeOfEncode (.pack 16) (by decide), decodeOfEncode .unpack trivial, decodeOfEncode .clrpay trivial,
    decodeOfEncode .matvec trivial, decodeOfEncode (.setk .k6 0 2 7) (by decide),
    decodeOfEncode (.setmode true) trivial, decodeOfEncode .sfcycle trivial⟩

/-- Settles O5: a word of no row decodes to no command, and an illegal word only fails. -/
theorem illegalWordFails : Obligations.IllegalWordFails := by
  intro s w h
  refine ⟨?_, rfl⟩
  rw [Machine.runCommand, decode_of_not_rowMatches h]
  rfl

end Sys2Proof
end

section
/-! PROOF of O20 to O25 (40_codec.md rules R125 to R131 and R133): what PACK and UNPACK answer in each of their two cases,
and the bytes of the packet, so that the losslessness of the codec is a read of a framed byte after an unpacked one. -/

namespace Sys2Proof.Machine

/-! ## The bytes of a framed packet -/

theorem byteAt_framed_header {tx : List Byte} (size : Nat) (payload : List Byte) (h : 0 < tx.length) :
    byteAt (framed size payload tx) 0 = Config.header := by
  simp [byteAt_framed _ _ _ _ h]

theorem byteAt_framed_payload {size k : Nat} {tx : List Byte} (payload : List Byte) (hk : k < size)
    (h : size < tx.length) : byteAt (framed size payload tx) (k + 1) = byteAt payload k := by
  rw [byteAt_framed _ _ _ _ (by omega), if_neg (by omega), if_pos (by omega), Nat.add_sub_cancel]

/-- Past the payload bytes a framed packet keeps what TXBUF held; past the buffer's end both read 0x00. -/
theorem byteAt_framed_tail {size k : Nat} (payload tx : List Byte) (hk : size < k) :
    byteAt (framed size payload tx) k = byteAt tx k := by
  rcases lt_or_ge k tx.length with hl | hl
  · rw [byteAt_framed _ _ _ _ hl, if_neg (by omega), if_neg (by omega)]
  · rw [byteAt_past _ _ (by simpa using hl), byteAt_past _ _ hl]

/-- A payload that fits leaves room in TXBUF for the header. -/
theorem BuffersFit.size_lt_txbuf {s : State} {size : Nat} (hb : BuffersFit s) (h : size ≤ s.variant.payloadLen) :
    size < s.txbuf.length := by
  rw [hb.txbuf, SfVariant.pktLen]
  omega

theorem clearBytes_eq_replicate (buf : List Byte) : clearBytes buf = List.replicate buf.length 0 := by
  simp [clearBytes]

/-! ## What PACK and UNPACK answer -/

theorem exec_pack_of_le {size : Nat} {s : State} (h : size ≤ s.variant.payloadLen) :
    exec (.pack size) s = .next (finish .ok { s with txbuf := framed size s.paybuf s.txbuf }) := by
  obtain ⟨-, hp⟩ | ⟨hlt, -⟩ := pack_cases size s
  · simp only [exec, execPack, hp]
  · exact absurd h (Nat.not_le_of_lt hlt)

theorem exec_pack_of_lt {size : Nat} {s : State} (h : s.variant.payloadLen < size) :
    exec (.pack size) s = .next (fail .oversize .oversize s) := by
  obtain ⟨hle, -⟩ | ⟨-, hp⟩ := pack_cases size s
  · exact absurd h (Nat.not_lt_of_le hle)
  · simp only [exec, execPack, hp]

theorem exec_unpack_of_header {s : State} (h : byteAt s.rxbuf 0 = Config.header) :
    exec .unpack s = .next (finish .ok (unpacked s)) := by
  obtain ⟨-, hu⟩ | ⟨hne, -⟩ := unpack_cases s
  · simp only [exec, execUnpack, hu]
  · exact absurd h hne

theorem exec_unpack_of_ne_header {s : State} (h : byteAt s.rxbuf 0 ≠ Config.header) :
    exec .unpack s = .next (fail .invalid .invalid s) := by
  obtain ⟨heq, -⟩ | ⟨-, hu⟩ := unpack_cases s
  · exact absurd heq h
  · simp only [exec, execUnpack, hu]

/-! ## The statements -/

/-- Settles O20: the packet is TXBUF framed, and its bytes are the header, the payload's and the old tail. -/
theorem packFramesThePayload : Obligations.PackFramesThePayload := by
  intro s size hb hsize
  have hroom : size < s.txbuf.length := hb.size_lt_txbuf hsize
  refine ⟨_, exec_pack_of_le hsize, rfl, length_framed _ _ _, byteAt_framed_header _ _ (by omega), ?_, ?_⟩
  · intro k hk
    rw [Nat.add_comm]
    exact byteAt_framed_payload _ hk hroom
  · intro k hk
    exact byteAt_framed_tail _ _ hk

/-- Settles O21: a PACK that does not fit only fails. -/
theorem oversizePackFails : Obligations.OversizePackFails := fun _ _ h => ⟨exec_pack_of_lt h, rfl⟩

/-- Settles O22: the bytes of an accepted packet stand in RESPBUF, and the clear is over the whole of RXBUF. -/
theorem unpackAcceptsAGoodHeader : Obligations.UnpackAcceptsAGoodHeader := by
  intro s hb hh
  refine ⟨_, exec_unpack_of_header hh, rfl, ?_, length_unpacked_respbuf s, ?_, BitVec.toNat_add _ _⟩
  · intro k hk
    rw [Nat.add_comm]
    exact byteAt_unpacked s k (hb.respbuf ▸ hk)
  · rw [← hb.rxbuf]
    exact clearBytes_eq_replicate s.rxbuf

/-- Settles O23: an UNPACK of another header only fails. -/
theorem unpackRejectsABadHeader : Obligations.UnpackRejectsABadHeader :=
  fun _ h => ⟨exec_unpack_of_ne_header h, rfl⟩

/-- Settles O24: the delivered packet carries the header, so UNPACK accepts it, and byte k of RESPBUF is the framed byte
after the header, which is byte k of PAYBUF. -/
theorem codecIsLossless : Obligations.CodecIsLossless := by
  intro s size hb hsize
  have hroom : size < s.txbuf.length := hb.size_lt_txbuf hsize
  refine ⟨_, _, exec_pack_of_le hsize, exec_unpack_of_header (byteAt_framed_header _ _ (by omega)), rfl, ?_⟩
  intro k hk
  have hframed : byteAt (framed size s.paybuf s.txbuf) (k + 1) = byteAt s.paybuf k := byteAt_framed_payload _ hk hroom
  refine ⟨Nat.add_comm 1 k ▸ hframed, (byteAt_unpacked _ k ?_).trans hframed⟩
  exact hb.respbuf ▸ hk.trans_le hsize

/-- Settles O25: the cleared buffer has its old length, and every byte of it reads 0x00. -/
theorem clrpayClearsTheStagingBuffer : Obligations.ClrpayClearsTheStagingBuffer := fun s =>
  ⟨_, rfl, rfl, length_clearBytes s.paybuf, byteAt_clearBytes s.paybuf⟩

end Sys2Proof.Machine
end

section
/-! SUPPORT for O11 to O15: more of the rounding to binary32 (00_scope.md rule R9). Magnitudes are monotone in their
patterns, a rounding is at most half a step away, and the next magnitude is one step up. -/

namespace Sys2Proof.Machine

/-! ## More of the rounding to binary32 -/

/-- Equal quotients round to one pattern. -/
theorem roundMag_congr {a b c d : Nat} (hb : 0 < b) (hd : 0 < d) (h : a * d = c * b) : roundMag a b = roundMag c d :=
  Nat.le_antisymm (roundMag_mono hb hd h.le) (roundMag_mono hd hb h.ge)

theorem roundNearestEven_mul_right (k : Nat) {d : Nat} (hd : 0 < d) : roundNearestEven (k * d) d = k := by
  rw [roundNearestEven, Nat.mul_mod_left, Nat.mul_div_cancel _ hd, if_neg (by omega)]

/-- A larger pattern has no smaller a magnitude: the next pattern has the next significand at the same shift. -/
theorem magOfBits_mono : Monotone magOfBits := by
  refine monotone_nat_of_le_succ fun b => ?_
  obtain ⟨sh, m, rfl, hm, hs⟩ : ∃ sh m, b = sh * 2 ^ 23 + m ∧ m < 2 ^ 24 ∧ (sh = 0 ∨ 2 ^ 23 ≤ m) :=
    ⟨b / 2 ^ 23 - 1, b - (b / 2 ^ 23 - 1) * 2 ^ 23, by omega, by omega, by omega⟩
  rw [Nat.add_assoc, magOfBits_round _ _ (by omega) hs, magOfBits_round _ _ (by omega) (by omega)]
  exact Nat.mul_le_mul_right _ (Nat.le_succ m)

/-- Below overflow the magnitude of a rounding is its significand shifted. -/
theorem magOfBits_roundMag {num den : Nat} (h : roundMag num den < 0x7F800000) :
    magOfBits (roundMag num den) = roundSig num den * 2 ^ fpShift (num / den) := by
  have hr := roundSig_range num den
  rw [roundMag_eq] at h ⊢
  rw [Nat.min_eq_left (by omega), magOfBits_round _ _ hr.1 hr.2]

theorem roundMag_lt {num den : Nat} (hd : 0 < den) (h : num < (2 ^ 25 - 1) * 2 ^ 252 * den) :
    roundMag num den < 0x7F800000 :=
  lt_of_le_of_lt (Nat.min_le_left _ _) (roundRaw_lt num den hd h)

theorem fpShift_le {q k : Nat} (h : q < 2 ^ 24 * 2 ^ k) : fpShift q ≤ k := by
  rcases (fpShift_spec q).2 with h0 | hlo
  · omega
  · have hpow := hlo.trans_lt h
    rw [← Nat.pow_add, ← Nat.pow_add, Nat.pow_lt_pow_iff_right (by decide)] at hpow
    omega

theorem le_fpShift {q k : Nat} (h : 2 ^ 23 * 2 ^ k ≤ q) : k ≤ fpShift q := by
  have hpow := h.trans_lt (fpShift_spec q).1
  rw [← Nat.pow_add, ← Nat.pow_add, Nat.pow_lt_pow_iff_right (by decide)] at hpow
  omega

/-- A rounding below overflow is a multiple of the step at its quotient, and at most half a step away. -/
theorem magOfBits_roundMag_close {num den : Nat} (hd : 0 < den) (h : roundMag num den < 0x7F800000) :
    2 ^ fpShift (num / den) ∣ magOfBits (roundMag num den) ∧
    2 * num ≤ 2 * den * magOfBits (roundMag num den) + den * 2 ^ fpShift (num / den) ∧
    2 * den * magOfBits (roundMag num den) ≤ 2 * num + den * 2 ^ fpShift (num / den) := by
  have hc := roundNearestEven_close num (den * 2 ^ fpShift (num / den)) (Nat.mul_pos hd (Nat.two_pow_pos _))
  have hm : 2 * (den * 2 ^ fpShift (num / den)) * roundSig num den = 2 * den * magOfBits (roundMag num den) := by
    rw [magOfBits_roundMag h]; ring
  rw [← roundSig, hm] at hc
  exact ⟨magOfBits_roundMag h ▸ Nat.dvd_mul_left _ _, hc⟩

/-- A magnitude that is a whole number of its own steps is kept. -/
theorem magOfBits_roundMag_of_dvd {q : Nat} (h : roundMag q 1 < 0x7F800000) (hq : 2 ^ fpShift q ∣ q) :
    magOfBits (roundMag q 1) = q := by
  have hsig : roundSig q 1 = q / 2 ^ fpShift q := by
    simpa only [roundSig, Nat.div_one, Nat.one_mul, Nat.div_mul_cancel hq] using
      roundNearestEven_mul_right (q / 2 ^ fpShift q) (Nat.two_pow_pos (fpShift q))
  rw [magOfBits_roundMag h, hsig, Nat.div_one, Nat.div_mul_cancel hq]

/-- The field formula of `fpMag` read at an infinity: the first power of two past the finite magnitudes. -/
theorem fpMag_of_isInf {w : Word} (h : fpIsInf w) : fpMag w = 2 ^ 23 * 2 ^ 254 := by
  rw [fpMag, h.1, h.2, if_neg (by decide)]
  rfl

/-- Above a point of the grid of 24-bit significands the next magnitude is the next point. -/
theorem succ_grid_le_fpMag {v : Word} {m k : Nat} (hm : 2 ^ 23 ≤ m) (h : m * 2 ^ k < fpMag v) :
    (m + 1) * 2 ^ k ≤ fpMag v := by
  rcases fpMag_grid v k with ⟨n, hn⟩ | ⟨-, hlow⟩
  · rw [hn] at h ⊢
    exact Nat.mul_le_mul_right _ (Nat.lt_of_mul_lt_mul_right h)
  · exact absurd (h.trans hlow) (Nat.not_lt_of_le (Nat.mul_le_mul_right _ hm))

end Sys2Proof.Machine
end

section
/-! PROOF of O11 and O12 (41_compressor.md rules R150, R151 and R153): compress is a monotone function of the magnitude,
`truncProduct`, with the sign of its input put back. -/

namespace Sys2Proof.Machine

/-! ## The product of a compress -/

/-- The magnitude of the binary32 product of a magnitude with 1000, in units of 2^-149 (R150). -/
def productMag (m : Nat) : Nat := magOfBits (roundMag (1000 * m) 1)

/-- The magnitude of the truncated product: `|t|` of R150. -/
def truncProduct (m : Nat) : Nat := productMag m / 2 ^ 149

theorem productMag_mono : Monotone productMag := fun _ _ h =>
  magOfBits_mono (roundMag_mono Nat.one_pos Nat.one_pos (Nat.mul_le_mul_right 1 (Nat.mul_le_mul_left 1000 h)))

theorem truncProduct_mono : Monotone truncProduct := fun _ _ h => Nat.div_le_div_right (productMag_mono h)

/-- The product of any input but a NaN, an infinity read with the field formula included. -/
theorem mul32_scale {w : Word} (h : ¬ fpIsNaN w) :
    mul32 fpDefaultNaN w Config.scale = fpPattern (fpSign w) (roundMag (1000 * fpMag w) 1) := by
  have hscale : fpIsFinite Config.scale ∧ fpSign Config.scale = false ∧ fpMag Config.scale = 1000 * 2 ^ 149 := by
    decide +kernel
  obtain ⟨hfin, hsign, hmag⟩ := hscale
  by_cases hw : fpIsFinite w
  · rw [mul32_of_isFinite hw hfin, hsign, hmag, Bool.bne_false]
    refine congrArg (fpPattern _) (roundMag_congr (Nat.two_pow_pos 149) Nat.one_pos ?_)
    ring
  · have hinf : fpIsInf w := ⟨not_not.mp hw, not_not.mp fun hf => h ⟨not_not.mp hw, hf⟩⟩
    have hz : ¬ (fpIsZero w ∨ fpIsZero Config.scale) :=
      not_or.mpr ⟨fun hz => absurd (hinf.1.symm.trans hz.1) (by decide), by decide⟩
    rw [mul32, if_neg (not_or.mpr ⟨h, not_isNaN_of_isFinite hfin⟩), if_pos (.inl hinf), if_neg hz, hsign,
      Bool.xor_false, roundMag_overflow _ _ (by rw [fpMag_of_isInf hinf]; decide) Nat.one_pos]
    rfl

/-- `t` of R150: the truncated product, signed. -/
def truncated (w : Word) : Int := fpTrunc (mul32 fpDefaultNaN w Config.scale)

theorem truncated_eq {w : Word} (h : ¬ fpIsNaN w) :
    truncated w = if fpSign w then -(truncProduct (fpMag w) : Int) else truncProduct (fpMag w) := by
  have hbits : roundMag (1000 * fpMag w) 1 < 2 ^ 31 := (roundMag_le _ _).trans_lt (by decide)
  rw [truncated, mul32_scale h, fpTrunc, fpSign_pattern, fpMag_pattern _ _ hbits]
  rfl

theorem fpTrunc_of_isInf {w : Word} (h : fpIsInf w) : fpTrunc w = if fpSign w then -(2 ^ 128) else 2 ^ 128 := by
  rw [fpTrunc, fpMag_of_isInf h]
  rfl

/-- Read with the field formula, an infinite product lies past both ends of s32, so its saturation is that of R150. -/
theorem scaledTrunc_eq (w : Word) : scaledTrunc .fp32Rne w = sat32 (truncated w) := by
  by_cases hi : fpIsInf (mul32 fpDefaultNaN w Config.scale)
  · refine (if_pos hi).trans ?_
    rw [truncated, fpTrunc_of_isInf hi]
    cases fpSign (mul32 fpDefaultNaN w Config.scale) <;> decide
  · exact if_neg hi

theorem sat32_lt_iff (t : Int) : sat32 t < -32768 ↔ t < -32768 := by rw [sat32]; omega

theorem lt_sat32_iff (t : Int) : 32767 < sat32 t ↔ 32767 < t := by rw [sat32]; omega

theorem sat32_of_mem {t : Int} (hlo : -32768 ≤ t) (hhi : t ≤ 32768) : sat32 t = t := by rw [sat32]; omega

/-- Compress on every input but a NaN. -/
theorem compress_eq {w : Word} (h : ¬ fpIsNaN w) :
    compress w = ⟨BitVec.ofInt 16 (sat32 (truncated w)), decide (truncated w < -32768 ∨ 32767 < truncated w)⟩ := by
  refine (if_neg h).trans ?_
  rw [show Config.cmpProduct = .fp32Rne from rfl, scaledTrunc_eq, decide_eq_decide.mpr]
  rw [sat32_lt_iff, lt_sat32_iff]

theorem compress_of_isNaN {w : Word} (h : fpIsNaN w) : compress w = ⟨0, true⟩ := if_pos h

/-- An infinite product saturates to one end of s32. -/
theorem compress_of_isInf_product {w : Word} (h : ¬ fpIsNaN w) (hi : fpIsInf (mul32 fpDefaultNaN w Config.scale)) :
    compress w = if fpSign (mul32 fpDefaultNaN w Config.scale) then ⟨0x0000, true⟩ else ⟨0xFFFF, true⟩ := by
  rw [compress_eq h, truncated, fpTrunc_of_isInf hi]
  cases fpSign (mul32 fpDefaultNaN w Config.scale) <;> decide

/-- Settles O11: past an s32 the infinite product is one more product to saturate. -/
theorem compressFollowsItsRule : Obligations.CompressFollowsItsRule := fun _ =>
  ⟨compress_of_isNaN, fun h =>
    ⟨mul32_scale h ▸ not_isNaN_round _ _ _, compress_of_isInf_product h, fun _ => compress_eq h⟩⟩

/-! ## The range of compress -/

theorem outOfRange_eq_false_iff (w : Word) :
    (compress w).outOfRange = false ↔ ¬ fpIsNaN w ∧ -32768 ≤ truncated w ∧ truncated w ≤ 32767 := by
  by_cases h : fpIsNaN w
  · simp [compress_of_isNaN h, h]
  · simp [compress_eq h, h]

/-- In range the value is the truncated product itself. -/
theorem value_eq_ofInt {w : Word} (h : (compress w).outOfRange = false) :
    (compress w).value = BitVec.ofInt 16 (truncated w) := by
  obtain ⟨hn, hlo, hhi⟩ := (outOfRange_eq_false_iff w).mp h
  rw [compress_eq hn, sat32_of_mem hlo (by omega)]

theorem toInt_value {w : Word} (h : (compress w).outOfRange = false) : (compress w).value.toInt = truncated w := by
  obtain ⟨-, hlo, hhi⟩ := (outOfRange_eq_false_iff w).mp h
  rw [value_eq_ofInt h, BitVec.toInt_ofInt, Int.bmod_eq_of_le (by omega) (by omega)]

/-- The largest magnitude whose truncated product is at most n, given as a point of the grid of significands. -/
theorem truncProduct_fpMag_le_iff {m k n : Nat} (hm : 2 ^ 23 ≤ m) (hlo : truncProduct (m * 2 ^ k) ≤ n)
    (hhi : n < truncProduct ((m + 1) * 2 ^ k)) (v : Word) : truncProduct (fpMag v) ≤ n ↔ fpMag v ≤ m * 2 ^ k := by
  refine ⟨fun h => ?_, fun h => (truncProduct_mono h).trans hlo⟩
  by_contra hlt
  have hstep := truncProduct_mono (succ_grid_le_fpMag hm (Nat.lt_of_not_le hlt))
  omega

theorem truncProduct_le_32767_iff (v : Word) : truncProduct (fpMag v) ≤ 32767 ↔ fpMag v ≤ 0x83126E * 2 ^ 131 :=
  truncProduct_fpMag_le_iff (by decide) (by decide +kernel) (by decide +kernel) v

theorem truncProduct_le_32768_iff (v : Word) : truncProduct (fpMag v) ≤ 32768 ↔ fpMag v ≤ 0x831374 * 2 ^ 131 :=
  truncProduct_fpMag_le_iff (by decide) (by decide +kernel) (by decide +kernel) v

theorem truncated_mem_iff {w : Word} (h : ¬ fpIsNaN w) :
    (-32768 ≤ truncated w ∧ truncated w ≤ 32767) ↔
      (fpScaled 0xC2031374 ≤ fpScaled w ∧ fpScaled w ≤ fpScaled 0x4203126E) := by
  have hends : fpScaled 0xC2031374 = -(0x831374 * 2 ^ 131) ∧ fpScaled 0x4203126E = 0x83126E * 2 ^ 131 := by
    decide +kernel
  have hpos := truncProduct_le_32767_iff w
  have hneg := truncProduct_le_32768_iff w
  rw [hends.1, hends.2, truncated_eq h, fpScaled]
  cases fpSign w <;> simp only [Bool.false_eq_true, if_false, if_true] <;> omega

theorem isFinite_of_fpMag_lt {w : Word} (h : ¬ fpIsNaN w) (hlt : fpMag w < 2 ^ 23 * 2 ^ 254) : fpIsFinite w := by
  intro he
  by_cases hf : fpFrac w = 0
  · exact absurd (fpMag_of_isInf ⟨he, hf⟩) hlt.ne
  · exact h ⟨he, hf⟩

theorem inRange_iff (w : Word) :
    (compress w).outOfRange = false ↔
      fpIsFinite w ∧ fpScaled 0xC2031374 ≤ fpScaled w ∧ fpScaled w ≤ fpScaled 0x4203126E := by
  rw [outOfRange_eq_false_iff]
  refine ⟨fun ⟨hn, ht⟩ => ⟨isFinite_of_fpMag_lt hn ?_, (truncated_mem_iff hn).mp ht⟩,
    fun ⟨hf, hs⟩ => ⟨not_isNaN_of_isFinite hf, (truncated_mem_iff (not_isNaN_of_isFinite hf)).mpr hs⟩⟩
  have hmag : fpMag w ≤ 0x831374 * 2 ^ 131 := by
    rw [← truncProduct_le_32768_iff]
    rw [truncated_eq hn] at ht
    split at ht <;> omega
  exact hmag.trans_lt (by decide)

theorem truncProduct_zero : truncProduct 0 = 0 := by decide +kernel

theorem truncated_mono {x y : Word} (hx : ¬ fpIsNaN x) (hy : ¬ fpIsNaN y) (h : fpScaled x ≤ fpScaled y) :
    truncated x ≤ truncated y := by
  rw [truncated_eq hx, truncated_eq hy]
  unfold fpScaled at h
  cases hsx : fpSign x <;> cases hsy : fpSign y <;>
    simp only [hsx, hsy, Bool.false_eq_true, if_false, if_true] at h ⊢
  · have := truncProduct_mono (Int.ofNat_le.mp h)
    omega
  · rw [show fpMag x = 0 by omega, show fpMag y = 0 by omega, truncProduct_zero]
    rfl
  · omega
  · have : truncProduct (fpMag y) ≤ truncProduct (fpMag x) := truncProduct_mono (by omega)
    omega

theorem not_isNaN_fpNeg {w : Word} (h : ¬ fpIsNaN w) : ¬ fpIsNaN (fpNeg w) := by
  rwa [fpIsNaN, fpExp_fpNeg, fpFrac_fpNeg]

theorem truncated_fpNeg {w : Word} (h : ¬ fpIsNaN w) : truncated (fpNeg w) = -truncated w := by
  rw [truncated_eq h, truncated_eq (not_isNaN_fpNeg h), fpSign_fpNeg, fpMag_fpNeg]
  cases fpSign w <;> simp

/-- The negated product may be 32768, which the cut to 16 bits takes to the negation of -32768. -/
theorem value_fpNeg {w : Word} (h : (compress w).outOfRange = false) :
    (compress (fpNeg w)).value = -(compress w).value := by
  obtain ⟨hn, hlo, hhi⟩ := (outOfRange_eq_false_iff w).mp h
  rw [value_eq_ofInt h, compress_eq (not_isNaN_fpNeg hn), truncated_fpNeg hn, sat32_of_mem (by omega) (by omega),
    BitVec.ofInt_neg]

/-- Settles O12: the truncated product is a monotone, odd function of the scaled input, and its ends are two points of the
grid of significands. -/
theorem compressProperties : Obligations.CompressProperties := by
  refine ⟨inRange_iff, fun x y hx hy h => ?_, fun _ => value_fpNeg, fun _ _ _ => ⟨_, rfl, rfl⟩⟩
  rw [toInt_value hx, toInt_value hy]
  exact truncated_mono ((outOfRange_eq_false_iff x).mp hx).1 ((outOfRange_eq_false_iff y).mp hy).1 h

end Sys2Proof.Machine
end

section
/-! PROOF of O14 (41_compressor.md rules R155 and R156): expand is one rounding of i / 1000. -/

namespace Sys2Proof.Machine

/-! ## Expand -/

/-- The magnitude of the expand of an integer of magnitude n, in units of 2^-149. -/
def expandMag (n : Nat) : Nat := magOfBits (roundMag (n * 2 ^ 149) 1000)

theorem natAbs_toInt_le (h : Half) : h.toInt.natAbs ≤ 32768 := by
  have hlo := BitVec.le_toInt h
  have hhi := BitVec.toInt_lt (x := h)
  omega

section
variable {n : Nat} (hn : n ≤ 32768)
include hn

theorem roundMag_int_lt : roundMag (n * 2 ^ 149) 1 < 0x7F800000 := roundMag_lt Nat.one_pos (by omega)

theorem roundMag_quotient_lt : roundMag (n * 2 ^ 149) 1000 < 0x7F800000 := roundMag_lt (by decide) (by omega)

/-- An integer of at most 16 bits is a binary32 (R155). -/
theorem magOfBits_roundMag_int : magOfBits (roundMag (n * 2 ^ 149) 1) = n * 2 ^ 149 :=
  magOfBits_roundMag_of_dvd (roundMag_int_lt hn)
    ((Nat.pow_dvd_pow 2 (fpShift_le (by omega))).trans (Nat.dvd_mul_left _ _))

theorem expandMag_close :
    2 ^ fpShift (n * 2 ^ 149 / 1000) ∣ expandMag n ∧
    2 * (n * 2 ^ 149) ≤ 2 * 1000 * expandMag n + 1000 * 2 ^ fpShift (n * 2 ^ 149 / 1000) ∧
    2 * 1000 * expandMag n ≤ 2 * (n * 2 ^ 149) + 1000 * 2 ^ fpShift (n * 2 ^ 149 / 1000) :=
  magOfBits_roundMag_close (by decide) (roundMag_quotient_lt hn)

end

theorem isFinite_pattern {bits : Nat} (neg : Bool) (h : bits < 0x7F800000) : fpIsFinite (fpPattern neg bits) := by
  rw [fpIsFinite, fpExp_pattern _ _ (by omega)]
  omega

/-- Expand is one rounding of the exact quotient, since its dividend is exact. -/
theorem expand_eq (h : Half) :
    expand h = fpPattern (decide (h.toInt < 0)) (roundMag (h.toInt.natAbs * 2 ^ 149) 1000) := by
  have hscale : fpIsFinite Config.scale ∧ ¬ fpIsZero Config.scale ∧ fpSign Config.scale = false ∧
      fpMag Config.scale = 1000 * 2 ^ 149 := by decide +kernel
  obtain ⟨hfin, hz, hsign, hmag⟩ := hscale
  have hi := natAbs_toInt_le h
  have hlt := roundMag_int_lt hi
  have hint : fpMag (f32OfInt h.toInt) = h.toInt.natAbs * 2 ^ 149 :=
    (fpMag_pattern _ _ (hlt.trans (by decide))).trans (magOfBits_roundMag_int hi)
  have hfinite : fpIsFinite (f32OfInt h.toInt) := isFinite_pattern _ hlt
  rw [expand, div32_of_isFinite hfinite hfin hz, hint, hsign, hmag, Bool.bne_false, f32OfInt,
    fpSign_pattern]
  refine congrArg (fpPattern _) (roundMag_congr (Nat.mul_pos (by decide) (Nat.two_pow_pos 149)) (by decide) ?_)
  ring

theorem expand_roundsTo (h : Half) :
    RoundsTo (decide (h.toInt < 0)) (h.toInt.natAbs * 2 ^ 149) 1000 (expand h) :=
  expand_eq h ▸ roundsTo_roundMag _ _ _ (by decide)

theorem isFinite_expand (h : Half) : fpIsFinite (expand h) :=
  expand_eq h ▸ isFinite_pattern _ (roundMag_quotient_lt (natAbs_toInt_le h))

theorem fpMag_expand (h : Half) : fpMag (expand h) = expandMag h.toInt.natAbs := by
  rw [expand_eq, fpMag_pattern _ _ ((roundMag_le _ _).trans_lt (by decide)), expandMag]

theorem fpScaled_expand (h : Half) :
    fpScaled (expand h) =
      if h.toInt < 0 then -(expandMag h.toInt.natAbs : Int) else expandMag h.toInt.natAbs := by
  rw [fpScaled, (expand_roundsTo h).sign, fpMag_expand]
  simp only [decide_eq_true_eq]

/-- A value of the other sign than the quotient is no nearer to it than zero is. -/
theorem expand_nearest (h : Half) (w : Word) (hw : fpIsFinite w) :
    (1000 * fpScaled (expand h) - h.toInt * 2 ^ 149).natAbs ≤ (1000 * fpScaled w - h.toInt * 2 ^ 149).natAbs := by
  have hnear := (expand_roundsTo h).nearest (isFinite_expand h)
  have hnw := hnear w hw
  have hn0 := hnear 0 (by decide)
  have hN : h.toInt * 2 ^ 149 =
      if h.toInt < 0 then -((h.toInt.natAbs * 2 ^ 149 : Nat) : Int) else (h.toInt.natAbs * 2 ^ 149 : Nat) := by
    split <;> omega
  rw [show fpMag 0 = 0 from rfl] at hn0
  rw [fpMag_expand] at hnw hn0
  rw [fpScaled_expand, hN, fpScaled]
  generalize h.toInt.natAbs * 2 ^ 149 = N at *
  generalize expandMag h.toInt.natAbs = E at *
  generalize fpMag w = M at *
  split <;> cases fpSign w <;> simp only [Bool.false_eq_true, if_false, if_true] <;> omega

/-- Not less than 1/1000, so above the subnormals. -/
theorem fpExp_expand_ne_zero {h : Half} (h0 : h ≠ 0) : fpExp (expand h) ≠ 0 := by
  have hi : 0 < h.toInt.natAbs := Int.natAbs_pos.mpr fun hz => h0 (BitVec.toInt_inj.mp hz)
  have hmono : roundMag (1 * 2 ^ 149) 1000 ≤ roundMag (h.toInt.natAbs * 2 ^ 149) 1000 :=
    roundMag_mono (by decide) (by decide) (by omega)
  have hone : 2 ^ 23 ≤ roundMag (1 * 2 ^ 149) 1000 := by decide +kernel
  rw [expand_eq, fpExp_pattern _ _ ((roundMag_le _ _).trans_lt (by decide))]
  omega

/-- Settles O14: the rounding is the nearest one of its sign, and no quotient but 0 is below the normal range. -/
theorem expandIsNearestQuotient : Obligations.ExpandIsNearestQuotient :=
  ⟨expand_nearest, by decide +kernel,
    fun h h0 => ⟨isFinite_expand h, fpExp_expand_ne_zero h0, (expand_roundsTo h).sign⟩⟩

end Sys2Proof.Machine
end

section
/-! PROOF of O15 (41_compressor.md rule R154), in units of 2^-149. For an input m * 2^k with a 24-bit significand m and
truncated product t, the product lies at least half a step below t + 1, and expand rounds t / 1000 by at most half a step of
its own. -/

namespace Sys2Proof.Machine

/-! ## The round trip -/

/-- A multiple of a step that divides U lies at least one step below the next multiple of U. -/
theorem add_step_le_of_dvd {D R U : Nat} (hU : D ∣ U) (hR : D ∣ R) (hpos : 0 < U) : R + D ≤ (R / U + 1) * U := by
  have hlt : R < (R / U + 1) * U := Nat.lt_mul_of_div_lt (Nat.lt_succ_self _) hpos
  have hdvd : D ∣ (R / U + 1) * U - R := Nat.dvd_sub (hU.mul_left _) hR
  have hle := Nat.le_of_dvd (Nat.sub_pos_of_lt hlt) hdvd
  omega

section
variable {m : Nat} (hm : m < 32 * 2 ^ 149)
include hm

theorem productMag_close :
    2 ^ fpShift (1000 * m) ∣ productMag m ∧
    2 * (1000 * m) ≤ 2 * productMag m + 2 ^ fpShift (1000 * m) ∧
    2 * productMag m ≤ 2 * (1000 * m) + 2 ^ fpShift (1000 * m) := by
  have hlt : roundMag (1000 * m) 1 < 0x7F800000 := roundMag_lt Nat.one_pos (by omega)
  simpa only [productMag, Nat.div_one, Nat.mul_one, Nat.one_mul] using magOfBits_roundMag_close Nat.one_pos hlt

theorem truncProduct_le_32000 : truncProduct m ≤ 32000 :=
  (truncProduct_mono hm.le).trans (by decide +kernel)

/-- A product whose truncation is t lies half a step short of t + 1. -/
theorem thousand_mul_add_step_le :
    2 * (1000 * m) + 2 ^ fpShift (1000 * m) ≤ 2 * ((truncProduct m + 1) * 2 ^ 149) := by
  obtain ⟨hdvd, hclose, -⟩ := productMag_close hm
  have hgap : productMag m + 2 ^ fpShift (1000 * m) ≤ (truncProduct m + 1) * 2 ^ 149 :=
    add_step_le_of_dvd (Nat.pow_dvd_pow 2 ((fpShift_le (k := 140) (by omega)).trans (by decide))) hdvd
      (Nat.two_pow_pos 149)
  omega

/-- Expand does not pass the input by more than the two roundings. -/
theorem expandMag_le : 1000 * expandMag (truncProduct m) ≤ 1000 * m + 2 ^ 149 := by
  have ht := truncProduct_le_32000 hm
  obtain ⟨-, -, hprod⟩ := productMag_close hm
  obtain ⟨-, -, hexp⟩ := expandMag_close (ht.trans (by decide))
  have htrunc : truncProduct m * 2 ^ 149 ≤ productMag m := Nat.div_mul_le_self _ _
  have hs : 2 ^ fpShift (1000 * m) ≤ 2 ^ 140 := Nat.pow_le_pow_right (by decide) (fpShift_le (by omega))
  have hs' : 2 ^ fpShift (truncProduct m * 2 ^ 149 / 1000) ≤ 2 ^ 131 :=
    Nat.pow_le_pow_right (by decide) (fpShift_le (by omega))
  omega

end

/-- The significands of the input and of its expand, in one binade of step 2^(149 - i) whose products have a step of 512:
1000 m - 1000 e is a multiple of 1000 and at most 2^i + 244. A multiple of 1000 lies in between only for i = 26, 29 and
30, where at most three t are left. -/
theorem significand_le {m e t i : Nat} (hlo : 19 ≤ i) (hhi : i ≤ 33) (hm : 1000 * m < 2 ^ 33)
    (hprod : 1000 * m + 256 ≤ (t + 1) * 2 ^ i) (ht : 1000 * 2 ^ 23 ≤ t * 2 ^ i) (he : t * 2 ^ i ≤ 1000 * e + 500) :
    1000 * m ≤ 1000 * e + 2 ^ i := by
  by_cases h26 : i = 26
  · subst h26
    by_contra hgt
    obtain rfl | rfl | rfl : t = 125 ∨ t = 126 ∨ t = 127 := by omega
    all_goals omega
  · interval_cases i <;> omega

/-- `significand_le` in units of 2^-149. -/
theorem mul_pow_le_of_same_step {m e t k : Nat} (hklo : 116 ≤ k) (hkhi : k ≤ 130) (hm : 1000 * m < 2 ^ 33)
    (hprod : 1000 * (m * 2 ^ k) + 256 * 2 ^ k ≤ (t + 1) * 2 ^ 149) (ht : 1000 * (2 ^ 23 * 2 ^ k) ≤ t * 2 ^ 149)
    (he : t * 2 ^ 149 ≤ 1000 * (e * 2 ^ k) + 500 * 2 ^ k) : 1000 * (m * 2 ^ k) ≤ 1000 * (e * 2 ^ k) + 2 ^ 149 := by
  have hpos : 0 < 2 ^ k := Nat.two_pow_pos k
  have hone : 2 ^ 149 = 2 ^ (149 - k) * 2 ^ k := by rw [← Nat.pow_add, Nat.sub_add_cancel (by omega)]
  rw [hone] at hprod ht he ⊢
  have hunits := significand_le (m := m) (e := e) (t := t) (i := 149 - k) (by omega) (by omega) hm
    (Nat.le_of_mul_le_mul_right (by linarith) hpos) (Nat.le_of_mul_le_mul_right (by linarith) hpos)
    (Nat.le_of_mul_le_mul_right (by linarith) hpos)
  linarith [Nat.mul_le_mul_right (2 ^ k) hunits]

/-- A normal magnitude is a 24-bit significand shifted. -/
theorem exists_significand {w : Word} (h : 2 ^ 23 ≤ fpMag w) :
    ∃ m k, fpMag w = m * 2 ^ k ∧ 2 ^ 23 ≤ m ∧ m < 2 ^ 24 := by
  have hf := fpFrac_lt w
  unfold fpMag at h ⊢
  split at h
  next => exact absurd hf (Nat.not_lt_of_le h)
  next he => exact ⟨_, _, if_neg he, by omega, by omega⟩

section
variable {m k : Nat} (hmlo : 2 ^ 23 ≤ m) (hmhi : m < 2 ^ 24)
include hmlo hmhi

theorem mul_pow_bounds : 2 ^ 23 * 2 ^ k ≤ m * 2 ^ k ∧ m * 2 ^ k + 2 ^ k ≤ 2 ^ 24 * 2 ^ k :=
  ⟨Nat.mul_le_mul_right _ hmlo, Nat.succ_mul m _ ▸ Nat.mul_le_mul_right _ hmhi⟩

/-- The step of the product is 512 or 1024 times that of the input. -/
theorem fpShift_thousand_mul :
    (fpShift (1000 * (m * 2 ^ k)) = k + 9 ∧ 1000 * m < 2 ^ 33) ∨ fpShift (1000 * (m * 2 ^ k)) = k + 10 := by
  obtain ⟨hlo, hhi⟩ := mul_pow_bounds (k := k) hmlo hmhi
  have hpos : 0 < 2 ^ k := Nat.two_pow_pos k
  have hpow9 : 2 ^ (k + 9) = 512 * 2 ^ k := by ring
  have hpow10 : 2 ^ (k + 10) = 1024 * 2 ^ k := by ring
  have hle : fpShift (1000 * (m * 2 ^ k)) ≤ k + 10 := fpShift_le (by omega)
  rcases Nat.lt_or_ge (1000 * m) (2 ^ 33) with hm | hm
  · have hge : k + 9 ≤ fpShift (1000 * (m * 2 ^ k)) := le_fpShift (by omega)
    omega
  · have hmul : 2 ^ 33 * 2 ^ k ≤ 1000 * m * 2 ^ k := Nat.mul_le_mul_right _ hm
    rw [Nat.mul_assoc] at hmul
    exact .inr (hle.antisymm (le_fpShift (by omega)))

/-- The step of expand at the truncated product is at most that of the input. -/
theorem fpShift_quotient_le (hmag : m * 2 ^ k < 32 * 2 ^ 149) :
    fpShift (truncProduct (m * 2 ^ k) * 2 ^ 149 / 1000) ≤ k := by
  obtain ⟨-, hhi⟩ := mul_pow_bounds (k := k) hmlo hmhi
  obtain ⟨-, -, hprod⟩ := productMag_close hmag
  have htrunc : truncProduct (m * 2 ^ k) * 2 ^ 149 ≤ productMag (m * 2 ^ k) := Nat.div_mul_le_self _ _
  have hpow10 : 2 ^ (k + 10) = 1024 * 2 ^ k := by ring
  have hs : 2 ^ fpShift (1000 * (m * 2 ^ k)) ≤ 2 ^ (k + 10) :=
    Nat.pow_le_pow_right (by decide) (by rcases fpShift_thousand_mul (k := k) hmlo hmhi with h | h <;> omega)
  have hpos : 0 < 2 ^ k := Nat.two_pow_pos k
  exact fpShift_le (by omega)

/-- The truncation leaves the product half a step short of the next integer, and the rounding of expand costs less, by
its step; only where both steps are the smallest does it take the residues of `significand_le`. -/
theorem mul_pow_le_expandMag (hklo : 116 ≤ k) (hkhi : k ≤ 130) :
    1000 * (m * 2 ^ k) ≤ 1000 * expandMag (truncProduct (m * 2 ^ k)) + 2 ^ 149 := by
  obtain ⟨-, hhi⟩ := mul_pow_bounds (k := k) hmlo hmhi
  have hmag : m * 2 ^ k < 32 * 2 ^ 149 := by
    have hpow : 2 ^ k ≤ 2 ^ 130 := Nat.pow_le_pow_right (by decide) hkhi
    have hpos : 0 < 2 ^ k := Nat.two_pow_pos k
    omega
  have hgap := thousand_mul_add_step_le hmag
  have hstep := fpShift_quotient_le hmlo hmhi hmag
  have hspec := (fpShift_spec (truncProduct (m * 2 ^ k) * 2 ^ 149 / 1000)).2
  obtain ⟨⟨e, he⟩, hclose, -⟩ := expandMag_close ((truncProduct_le_32000 hmag).trans (by decide))
  generalize truncProduct (m * 2 ^ k) = t at *
  generalize fpShift (t * 2 ^ 149 / 1000) = s at *
  rcases fpShift_thousand_mul (k := k) hmlo hmhi with ⟨hs, hm⟩ | hs
  · have hpow : 2 ^ (k + 9) = 512 * 2 ^ k := by ring
    rw [hs, hpow] at hgap
    rcases Nat.lt_or_eq_of_le hstep with hfine | rfl
    · have hhalf : 2 ^ (s + 1) ≤ 2 ^ k := Nat.pow_le_pow_right (by decide) hfine
      rw [Nat.pow_succ] at hhalf
      omega
    · rw [Nat.mul_comm] at he
      rw [he] at hclose ⊢
      exact mul_pow_le_of_same_step (t := t) hklo hkhi hm (by omega) (by omega) (by omega)
  · have hpow : 2 ^ (k + 10) = 1024 * 2 ^ k := by ring
    have hcoarse : 2 ^ s ≤ 2 ^ k := Nat.pow_le_pow_right (by decide) hstep
    rw [hs, hpow] at hgap
    omega

end

theorem le_expandMag {w : Word} (hw : fpMag w < 32 * 2 ^ 149) :
    1000 * fpMag w ≤ 1000 * expandMag (truncProduct (fpMag w)) + 2 ^ 149 := by
  rcases Nat.le_total (1000 * fpMag w) (2 ^ 149) with hsmall | hlarge
  · omega
  obtain ⟨m, k, hmk, hmlo, hmhi⟩ := exists_significand (w := w) (by omega)
  rw [hmk] at hw hlarge ⊢
  have hklo : 116 ≤ k := by
    by_contra hk
    have hlt : m * 2 ^ k < 2 ^ 24 * 2 ^ 115 :=
      Nat.mul_lt_mul_of_lt_of_le hmhi (Nat.pow_le_pow_right (by decide) (by omega)) (Nat.two_pow_pos _)
    omega
  have hkhi : k ≤ 130 := by
    by_contra hk
    have hle : 2 ^ 23 * 2 ^ 131 ≤ m * 2 ^ k := Nat.mul_le_mul hmlo (Nat.pow_le_pow_right (by decide) (by omega))
    omega
  exact mul_pow_le_expandMag hmlo hmhi hklo hkhi

theorem expandMag_zero : expandMag 0 = 0 := by decide +kernel

/-- The sign of an integer comes back, but for the sign of a zero, whose expand is +0.0. -/
theorem fpScaled_expand_of_toInt {h : Half} {n : Nat} {neg : Bool} (hi : h.toInt = if neg then -(n : Int) else n) :
    fpScaled (expand h) = if neg then -(expandMag n : Int) else expandMag n := by
  have hn : h.toInt.natAbs = n := by rw [hi]; cases neg <;> simp
  rw [fpScaled_expand, hn, hi]
  rcases Nat.eq_zero_or_pos n with rfl | hpos
  · simp [expandMag_zero]
  · cases neg <;> simp [hpos]

/-- Settles O15: below 32 every input is in range, its expand has its sign, and the magnitudes are at most a thousandth
apart either way. -/
theorem roundTripErrorIsAtMostAThousandth : Obligations.RoundTripErrorIsAtMostAThousandth := by
  intro x hfin hx
  refine ⟨isFinite_expand _, ?_⟩
  have hnan := not_isNaN_of_isFinite hfin
  have htrunc := truncated_eq hnan
  have ht := truncProduct_le_32000 hx
  have hin : (compress x).outOfRange = false := by
    refine (outOfRange_eq_false_iff x).mpr ⟨hnan, ?_⟩
    rw [htrunc]
    split <;> omega
  have hup := expandMag_le hx
  have hdown := le_expandMag hx
  rw [fpScaled_expand_of_toInt ((toInt_value hin).trans htrunc), fpScaled]
  generalize expandMag (truncProduct (fpMag x)) = E at *
  split <;> omega

end Sys2Proof.Machine
end

section
/-! PROOF of O13 and O16 to O19 (41_compressor.md rules R152, R156, R158, R160 and R164): what the four commands of the
compressor write. -/

namespace Sys2Proof.Machine

/-! ## The commands -/

theorem noteRange_eq (r : Bool) (s : State) :
    noteRange r s = { s with sticky := if r then s.sticky ||| 0x01#7 else s.sticky } := by cases r <;> rfl

theorem getElem_writeD (i k : DReg) (v : Word) (s : State) : (writeD i v s).d[k] = if k = i then v else s.d[k] :=
  (readD_writeD i k v s).trans (by simp only [eq_comm, readD])

theorem exec_cmpst_of_offsetOk {s : State} {off : Nat} (h : offsetOk s off) (rs : DReg) :
    exec (.cmpst off rs) s = .next (finish .ok (storeCompressed off (readD s rs) s)) :=
  congrArg Host.Outcome.next (if_pos h)

theorem exec_ldexp_of_offsetOk {s : State} {off : Nat} (h : offsetOk s off) (rd : DReg) :
    exec (.ldexp rd off) s = .next (finish .ok (writeD rd (expand (le16 s.respbuf off)) s)) :=
  congrArg Host.Outcome.next (if_pos h)

theorem exec_cmpst_of_not_offsetOk {s : State} {off : Nat} (h : ¬ offsetOk s off) (rs : DReg) :
    exec (.cmpst off rs) s = .next (fail .badIndex .badIndex s) :=
  congrArg Host.Outcome.next (if_neg h)

theorem exec_ldexp_of_not_offsetOk {s : State} {off : Nat} (h : ¬ offsetOk s off) (rd : DReg) :
    exec (.ldexp rd off) s = .next (fail .badIndex .badIndex s) :=
  congrArg Host.Outcome.next (if_neg h)

/-- A DISABLED block has no payload (R124), so it accepts no offset. -/
theorem not_offsetOk {s : State} {off : Nat}
    (h : off % 2 ≠ 0 ∨ s.variant.payloadLen < off + 2 ∨ s.variant = .disabled) : ¬ offsetOk s off := by
  rintro ⟨heven, hfits⟩
  rcases h with h | h | h
  · exact h heven
  · exact absurd hfits (Nat.not_le_of_lt h)
  · rw [payloadLen, h] at hfits
    exact absurd hfits (Nat.not_succ_le_zero _)

/-- Settles O13: the three updates of CMP, each read once. -/
theorem cmpCompressesARegister : Obligations.CmpCompressesARegister := by
  intro s rd rs
  refine ⟨_, rfl, ?_, fun k => ?_⟩
  · rw [noteRange_eq]
    rfl
  · rw [finish_d, getElem_writeD, noteRange_d]
    rfl

/-- Settles O16: the source is cut to its low half before it is expanded. -/
theorem expExpandsARegister : Obligations.ExpExpandsARegister := by
  intro s rd rs
  refine ⟨_, rfl, rfl, fun k => ?_⟩
  rw [finish_d, getElem_writeD, BitVec.setWidth_eq_extractLsb' (by decide)]
  rfl

/-- Settles O17: in each of the three cases the offset is not accepted, and the command only fails. -/
theorem badPayloadOffsetFails : Obligations.BadPayloadOffsetFails := fun _ r _ h =>
  ⟨exec_cmpst_of_not_offsetOk (not_offsetOk h) r, exec_ldexp_of_not_offsetOk (not_offsetOk h) r, rfl⟩

/-- Settles O18: an accepted offset leaves room in PAYBUF for the two bytes of the field. -/
theorem cmpstStoresTheField : Obligations.CmpstStoresTheField := by
  intro s off rs hb heven hfits
  refine ⟨_, exec_cmpst_of_offsetOk ⟨heven, hfits⟩ rs, ?_, ?_, fun k => ?_⟩
  · rw [storeCompressed, noteRange_eq]
    rfl
  · rw [finish_paybuf, storeCompressed, noteRange_paybuf, length_putLe16]
  · rw [finish_paybuf, storeCompressed, noteRange_paybuf]
    exact byteAt_putLe16 s.paybuf off k _ (hb.paybuf ▸ hfits)

/-- Settles O19: the field is the two bytes at the accepted offset. -/
theorem ldexpLoadsTheField : Obligations.LdexpLoadsTheField := fun s rd _ heven hfits =>
  ⟨_, exec_ldexp_of_offsetOk ⟨heven, hfits⟩ rd, rfl, fun k => getElem_writeD rd k _ s⟩

end Sys2Proof.Machine
end

section
/-! PROOF of O34 to O40 (42_watchdog.md rules R180 to R189): what SFCYCLE answers in each of its cases, the fields of the
request it sends, and the run of consecutive cycles from a send to the forced stop. -/

namespace Sys2Proof.Machine

/-! ## The outcomes of a cycle -/

/-- The saturating increment in natural numbers (R29). -/
theorem toNat_missed_countMiss (s : State) :
    (countMiss s).missed.toNat = min (s.missed.toNat + 1) (2 ^ 32 - 1) := by
  rw [countMiss]
  dsimp only
  split
  · next h => rw [h]; rfl
  · next h =>
    have hne : s.missed.toNat ≠ 2 ^ 32 - 1 := fun e => h (BitVec.eq_of_toNat_eq e)
    have hlt := s.missed.isLt
    have hadd : (s.missed + 1).toNat = (s.missed.toNat + 1) % 2 ^ 32 := BitVec.toNat_add _ _
    omega

theorem safetyCycle_of_ready {s : State} (ha : sfActive s = true) (hr : s.ready = true) :
    safetyCycle s = { s with
      sticky := (buildRequest s).sticky
      txbuf := requestPacket s
      paybuf := clearBytes (requestPayload s)
      events := s.events ++ [.linkSend (pktLen s) (requestPacket s)]
      ready := false
      missed := 0
      u := s.usf
      result := .sent } := by
  rw [safetyCycle, if_neg (by simp [ha]), if_pos hr, sendRequest_eq]
  rfl

theorem safetyCycle_of_missed_lt {s : State} (ha : sfActive s = true) (hr : s.ready = false) (hm : s.missed.toNat < 200) :
    safetyCycle s = { s with missed := s.missed + 1, u := s.usf, result := .missed } := by
  have hc := toNat_missed_countMiss s
  rw [safetyCycle, if_neg (by simp [ha]), if_neg (by simp [hr]), if_neg (by rw [Config.thresh]; omega), countMiss,
    if_neg fun h => by rw [h] at hm; exact absurd hm (by decide)]
  rfl

theorem safetyCycle_of_le_missed {s : State} (ha : sfActive s = true) (hr : s.ready = false) (hm : 200 ≤ s.missed.toNat) :
    safetyCycle s = { s with
      missed := (countMiss s).missed
      usf := #v[0, 0, 0, 0]
      u := #v[0, 0, 0, 0]
      ready := true
      sticky := s.sticky ||| 0x20#7
      result := .forcedStop } := by
  have hc := toNat_missed_countMiss s
  rw [safetyCycle, if_neg (by simp [ha]), if_neg (by simp [hr]), if_pos (by rw [Config.thresh]; omega)]
  rfl

/-- Settles O34: each variant has its own answer, and the mode decides in the three that have a link. -/
theorem filterActiveExactly : Obligations.FilterActiveExactly := by
  intro s
  rw [sfActive]
  cases s.variant <;> simp

/-- Settles O35. -/
theorem inactiveCycleChangesOnlyResult : Obligations.InactiveCycleChangesOnlyResult := fun _ ha =>
  ⟨congrArg Host.Outcome.next (if_pos ha), rfl⟩

/-- Settles O38. -/
theorem missedCycleCounts : Obligations.MissedCycleCounts := fun _ ha hr hm =>
  ⟨congrArg Host.Outcome.next (safetyCycle_of_missed_lt ha hr hm), rfl⟩

/-- Settles O39: the count saturates where it cannot grow. -/
theorem forcedStopAboveThreshold : Obligations.ForcedStopAboveThreshold := by
  intro s ha hr hm
  refine ⟨congrArg Host.Outcome.next ?_, rfl⟩
  rw [safetyCycle_of_le_missed ha hr hm, countMiss]
  congr 1
  split
  · assumption
  · rfl

/-! ## The request -/

/-- CMP_RANGE after a request is built (R182). -/
theorem buildRequest_sticky (s : State) :
    (buildRequest s).sticky =
      if ∃ f ∈ requestFields s, (compress f.2).outOfRange = true then s.sticky ||| 0x01#7 else s.sticky := by
  rw [buildRequest, noteRange_sticky]
  simp only [List.any_eq_true]
  rfl

/-- Settles O36: the clear is over the whole of PAYBUF, and the packet is framed in the whole of TXBUF. -/
theorem readyCycleSendsARequest : Obligations.ReadyCycleSendsARequest := by
  intro s hb ha hr
  obtain ⟨-, -, hlen, hheader⟩ := requestPacket_sound hb (variant_ne_disabled_of_sfActive ha)
  refine ⟨_, congrArg Host.Outcome.next (safetyCycle_of_ready ha hr), rfl, ?_, hlen, hheader, ?_, rfl⟩
  · rw [← hb.paybuf, requestPayload, clearBytes_eq_replicate, length_putFields, length_clearBytes]
  · rw [buildRequest_sticky]
    split
    · exact .inr rfl
    · exact .inl rfl

/-- The fields of a layout lie in a buffer of `len` bytes, one after the other (R122). -/
structure FieldsFit (fields : List (Nat × Word)) (len : Nat) : Prop where
  inside : ∀ f ∈ fields, f.1 + 2 ≤ len
  apart : fields.Pairwise fun f g => f.1 + 2 ≤ g.1

theorem FieldsFit.tail {f : Nat × Word} {fs : List (Nat × Word)} {len : Nat} (h : FieldsFit (f :: fs) len) :
    FieldsFit fs len := ⟨fun g hg => h.inside g (.tail _ hg), h.apart.of_cons⟩

theorem putFields_cons (f : Nat × Word) (fs : List (Nat × Word)) (buf : List Byte) :
    putFields (f :: fs) buf = putFields fs (putLe16 buf f.1 (compress f.2).value) := rfl

/-- A byte that carries no field keeps its value. -/
theorem byteAt_putFields_of_outside {fields : List (Nat × Word)} {buf : List Byte} {k : Nat}
    (hfit : FieldsFit fields buf.length) (hk : ∀ f ∈ fields, k < f.1 ∨ f.1 + 2 ≤ k) :
    byteAt (putFields fields buf) k = byteAt buf k := by
  induction fields generalizing buf with
  | nil => rfl
  | cons f fs ih =>
    have hf := hk f (.head _)
    rw [putFields_cons, ih (by rw [length_putLe16]; exact hfit.tail) fun g hg => hk g (.tail _ hg),
      byteAt_putLe16 _ _ _ _ (hfit.inside f (.head _)), if_neg (by omega), if_neg (by omega)]

/-- A field holds the compressed value of its source. -/
theorem le16_putFields_of_mem {fields : List (Nat × Word)} {buf : List Byte} {f : Nat × Word}
    (hfit : FieldsFit fields buf.length) (hf : f ∈ fields) :
    le16 (putFields fields buf) f.1 = (compress f.2).value := by
  induction fields generalizing buf with
  | nil => cases hf
  | cons g fs ih =>
    have htail : FieldsFit fs (putLe16 buf g.1 (compress g.2).value).length := by
      rw [length_putLe16]; exact hfit.tail
    rw [putFields_cons]
    rcases List.mem_cons.mp hf with rfl | hmem
    · have hapart : ∀ e ∈ fs, f.1 + 2 ≤ e.1 := fun e he => List.rel_of_pairwise_cons hfit.apart he
      rw [le16, byteAt_putFields_of_outside htail fun e he => .inl (hapart e he),
        byteAt_putFields_of_outside htail fun e he => .inl (Nat.lt_of_succ_lt (hapart e he))]
      exact le16_putLe16 _ _ _ (hfit.inside f (.head _))
    · exact ih htail hmem

theorem requestFields_fit (s : State) : FieldsFit (requestFields s) s.variant.payloadLen := by
  unfold requestFields
  cases s.variant <;> exact ⟨by simp [SfVariant.payloadLen], by simp⟩

/-- The fields of the position layout (R122). -/
theorem mem_requestFields_of_pos {s : State} (h : s.variant = .pos) (f : Nat × Word) :
    f ∈ requestFields s ↔
      (∃ k : Fin 6, (2 * k.val, s.sv[k.val]) = f) ∨ ∃ i : Fin 4, (12 + 2 * i.val, s.u[i]) = f := by
  have hlist : requestFields s = (List.ofFn fun k : Fin 6 => (2 * k.val, s.sv[k.val])) ++
      List.ofFn fun i : Fin 4 => (12 + 2 * i.val, s.u[i]) := by
    rw [requestFields, h]
    rfl
  rw [hlist, List.mem_append, List.mem_ofFn, List.mem_ofFn]

/-- The fields sent of the two attitude layouts (R122). -/
theorem mem_requestFields_of_att {s : State} (h : s.variant = .att ∨ s.variant = .attIt) (f : Nat × Word) :
    f ∈ requestFields s ↔
      f = (0, s.sv[6]) ∨ f = (2, s.sv[7]) ∨ ∃ i : Fin 4, (4 + 2 * i.val, s.u[i]) = f := by
  have hlist : requestFields s =
      (0, s.sv[6]) :: (2, s.sv[7]) :: List.ofFn fun i : Fin 4 => (4 + 2 * i.val, s.u[i]) := by
    rcases h with h | h <;> rw [requestFields, h] <;> rfl
  rw [hlist, List.mem_cons, List.mem_cons, List.mem_ofFn]

/-- A field of the packet is the field of its payload (R120, R126). -/
theorem le16_framed {size off : Nat} {tx : List Byte} (payload : List Byte) (hoff : off + 2 ≤ size)
    (h : size < tx.length) : le16 (framed size payload tx) (1 + off) = le16 payload off := by
  rw [Nat.add_comm, le16, byteAt_framed_payload _ (by omega) h, byteAt_framed_payload _ (by omega) h, le16]

section
variable {s : State} (hb : BuffersFit s)
include hb

theorem requestFields_fit_clearBytes : FieldsFit (requestFields s) (clearBytes s.paybuf).length := by
  rw [length_clearBytes, hb.paybuf]
  exact requestFields_fit s

/-- Each field of the request in the packet (R182, R122). -/
theorem le16_requestPacket {off : Nat} {w : Word} (hf : (off, w) ∈ requestFields s) :
    le16 (requestPacket s) (1 + off) = (compress w).value :=
  (le16_framed _ ((requestFields_fit s).inside _ hf) (hb.size_lt_txbuf le_rfl)).trans
    (le16_putFields_of_mem (requestFields_fit_clearBytes hb) hf)

/-- The bytes of the packet past the fields of the request (R182, R123). -/
theorem byteAt_requestPacket_padding {k : Nat} (hk : 1 ≤ k) (hpad : ∀ f ∈ requestFields s, f.1 + 3 ≤ k) :
    byteAt (requestPacket s) k = 0x00 := by
  obtain ⟨j, rfl⟩ := Nat.exists_eq_add_of_le' hk
  rcases lt_or_ge j s.variant.payloadLen with hj | hj
  · rw [requestPacket, byteAt_framed_payload (size := payloadLen s) _ hj (hb.size_lt_txbuf le_rfl), requestPayload,
      byteAt_putFields_of_outside (requestFields_fit_clearBytes hb) fun f hf => .inr (Nat.le_of_succ_le_succ (hpad f hf)),
      byteAt_clearBytes]
  · refine byteAt_past _ _ ?_
    rw [requestPacket, length_framed, hb.txbuf, SfVariant.pktLen]
    omega

end

/-- Settles O37: the fields of each layout are read from the packet one by one, and the padding lies past the last. -/
theorem requestHoldsItsFields : Obligations.RequestHoldsItsFields := by
  intro s t hb ha hr h
  obtain rfl : safetyCycle s = t := Host.Outcome.next.inj h
  rw [safetyCycle_of_ready ha hr]
  dsimp only
  rw [buildRequest_sticky]
  refine ⟨fun hv => ?_, fun hv => ?_⟩
  · have hmem := mem_requestFields_of_pos hv
    refine ⟨fun k => ?_, fun i => ?_, ?_⟩
    · exact le16_requestPacket hb ((hmem _).mpr (.inl ⟨k, rfl⟩))
    · rw [show 13 + 2 * i.val = 1 + (12 + 2 * i.val) by omega]
      exact le16_requestPacket hb ((hmem _).mpr (.inr ⟨i, rfl⟩))
    · simp only [hmem, or_and_right, exists_or, exists_exists_eq_and]
  · have hmem := mem_requestFields_of_att hv
    refine ⟨?_, ?_, fun i => ?_, fun k hk => ?_, ?_⟩
    · exact le16_requestPacket hb (off := 0) ((hmem _).mpr (.inl rfl))
    · exact le16_requestPacket hb (off := 2) ((hmem _).mpr (.inr (.inl rfl)))
    · rw [show 5 + 2 * i.val = 1 + (4 + 2 * i.val) by omega]
      exact le16_requestPacket hb ((hmem _).mpr (.inr (.inr ⟨i, rfl⟩)))
    · refine byteAt_requestPacket_padding hb (by omega) fun f hf => ?_
      rcases (hmem f).mp hf with rfl | rfl | ⟨i, rfl⟩ <;> dsimp only <;> omega
    · simp only [hmem, or_and_right, exists_or, exists_eq_left, exists_exists_eq_and]

/-! ## Consecutive cycles -/

theorem execAll_append {is : List Instr} {s t : State} (js : List Instr) (h : execAll is s = .next t) :
    execAll (is ++ js) s = execAll js t := by
  induction is generalizing s with
  | nil => cases h; rfl
  | cons i rest ih =>
    obtain ⟨r, hi⟩ := exec_next i s
    simp only [List.cons_append, execAll, hi] at h ⊢
    exact ih h

theorem execAll_sfcycle_succ {n : Nat} {s t : State} (h : execAll (List.replicate n .sfcycle) s = .next t) :
    execAll (List.replicate (n + 1) .sfcycle) s = .next (safetyCycle t) := by
  rw [List.replicate_succ', execAll_append _ h]
  rfl

/-- The state after n cycles that miss, with none counted before them (R184, R186). -/
def afterMisses (n : Nat) (s : State) : State :=
  { s with missed := BitVec.ofNat 32 n, u := s.usf, result := .missed }

theorem toNat_missed_afterMisses {n : Nat} (h : n ≤ 200) (s : State) : (afterMisses n s).missed.toNat = n := by
  rw [afterMisses, BitVec.toNat_ofNat]
  omega

/-- While a request is outstanding, 200 cycles miss (R189). -/
theorem execAll_misses {s : State} (ha : sfActive s = true) (hr : s.ready = false) (hm : s.missed = 0) (n : Nat)
    (hn : n < 200) : execAll (List.replicate (n + 1) .sfcycle) s = .next (afterMisses (n + 1) s) := by
  induction n with
  | zero =>
    rw [execAll_sfcycle_succ rfl, safetyCycle_of_missed_lt ha hr (by rw [hm]; decide), hm]
    rfl
  | succ n ih =>
    have hlt : (afterMisses (n + 1) s).missed.toNat < 200 := by rw [toNat_missed_afterMisses (by omega)]; omega
    rw [execAll_sfcycle_succ (ih (by omega)), safetyCycle_of_missed_lt (s := afterMisses (n + 1) s) ha hr hlt, afterMisses,
      afterMisses, BitVec.ofNat_add (n + 1) 1]
    rfl

/-- The cycle after 200 misses takes the forced stop (R185, R189). -/
theorem execAll_stop {s : State} (ha : sfActive s = true) (hr : s.ready = false) (hm : s.missed = 0) :
    execAll (List.replicate 201 .sfcycle) s = .next { s with
      missed := 201
      usf := #v[0, 0, 0, 0]
      u := #v[0, 0, 0, 0]
      ready := true
      sticky := s.sticky ||| 0x20#7
      result := .forcedStop } := by
  have hle : 200 ≤ (afterMisses 200 s).missed.toNat := (toNat_missed_afterMisses le_rfl s).ge
  rw [execAll_sfcycle_succ (execAll_misses ha hr hm 199 (by decide)),
    safetyCycle_of_le_missed (s := afterMisses 200 s) ha hr hle]
  rfl

/-- A send leaves a request outstanding with no miss counted (R183). -/
theorem exec_sfcycle_sends {s : State} (ha : sfActive s = true) (hr : s.ready = true) :
    ∃ t, exec .sfcycle s = .next t ∧ t.result = .sent ∧ t.ready = false ∧ t.missed = 0 ∧ t.usf = s.usf ∧
      sfActive t = true ∧ t.variant = s.variant ∧ t.events = s.events ++ [.linkSend s.variant.pktLen t.txbuf] :=
  ⟨_, congrArg Host.Outcome.next (safetyCycle_of_ready ha hr), rfl, rfl, rfl, rfl, ha, rfl, rfl⟩

/-- Settles O40: after the send 200 cycles miss, the next stops and re-arms, and the one after it sends. -/
theorem forcedStopFiresAtExactly201 : Obligations.ForcedStopFiresAtExactly201 := by
  intro s ha hr
  obtain ⟨t0, h0, hsent, hr0, hm0, husf, ha0, hv, -⟩ := exec_sfcycle_sends ha hr
  refine ⟨t0, h0, hsent, fun n h1 h200 => ?_, _, execAll_stop ha0 hr0 hm0, rfl, rfl, rfl, rfl, rfl, by simp, rfl, ?_⟩
  · obtain ⟨m, rfl⟩ := Nat.exists_eq_add_of_le' h1
    exact ⟨_, execAll_misses ha0 hr0 hm0 m h200, toNat_missed_afterMisses h200 _, rfl, husf, husf, hr0, rfl⟩
  · obtain ⟨t2, h2, hsent2, hr2, hm2, -, -, -, he2⟩ := exec_sfcycle_sends (s := { t0 with
      missed := 201, usf := #v[0, 0, 0, 0], u := #v[0, 0, 0, 0], ready := true, sticky := t0.sticky ||| 0x20#7,
      result := .forcedStop }) ha0 rfl
    exact ⟨t2, h2, hsent2, hm2, hr2, hv ▸ he2⟩

end Sys2Proof.Machine
end

section
/-! PROOF of O41 to O44 (42_watchdog.md rules R190 to R194, R198): the LH step and the transport's events. -/

namespace Sys2Proof.Machine

/-- The state in which the LH step accepts a good packet: NOTIFY cleared and the packet unpacked (R190). -/
def received (s : State) (rest : List Input) : State := unpacked { s with inputs := rest, notify := false }

theorem step_of_good_header {s : State} {rest : List Input} (hi : s.inputs = .linkHandler :: rest) (hn : s.notify = true)
    (hh : byteAt s.rxbuf 0 = Config.header) : step s = .next (acceptPacket (received s rest)) := by
  rw [step_cons hi, runInput]
  rcases linkHandlerStep_cases { s with inputs := rest } with ⟨h, -⟩ | ⟨-, h, -⟩ | ⟨-, -, h⟩
  · exact absurd (hn.symm.trans h) (by decide)
  · exact absurd hh h
  · rw [h, received]

/-- Settles O41. -/
theorem linkHandlerResyncsOnABadHeader : Obligations.LinkHandlerResyncsOnABadHeader := by
  intro s rest hi hn hh
  rw [step_cons hi, runInput]
  rcases linkHandlerStep_cases { s with inputs := rest } with ⟨h, -⟩ | ⟨-, -, h⟩ | ⟨-, h, -⟩
  · exact absurd (hn.symm.trans h) (by decide)
  · rw [h]
    exact ⟨rfl, rfl⟩
  · exact absurd h hh

section
variable {s : State} (hb : BuffersFit s) (rest : List Input)
include hb

theorem byteAt_respbuf_received {k : Nat} (hk : k < s.variant.payloadLen) :
    byteAt (received s rest).respbuf k = byteAt s.rxbuf (k + 1) :=
  byteAt_unpacked _ k (hb.respbuf ▸ hk)

theorem rxbuf_received : (received s rest).rxbuf = List.replicate s.variant.pktLen 0x00 := by
  rw [← hb.rxbuf]
  exact clearBytes_eq_replicate s.rxbuf

/-- A field of the response reads as in the packet, one byte further on (R128). -/
theorem le16_respbuf_received {off : Nat} (h : off + 2 ≤ s.variant.payloadLen) :
    le16 (received s rest).respbuf off = le16 s.rxbuf (off + 1) := by
  rw [le16, byteAt_respbuf_received hb rest h, byteAt_respbuf_received hb rest (Nat.lt_of_succ_lt h), le16]

end

/-- The control fields lie in the payload of each variant that has a link (R122). -/
theorem controlBase_fits {v : SfVariant} (h : v ≠ .disabled) (i : Fin 4) :
    controlBase v + 2 * i.val + 2 ≤ v.payloadLen := by
  cases v with
  | disabled => exact absurd rfl h
  | _ => simp only [controlBase, SfVariant.payloadLen]; omega

/-- The control fields in the packet, counted from the header (R122). -/
theorem controlBase_succ {v : SfVariant} (h : v ≠ .disabled) : controlBase v + 1 = if v = .pos then 13 else 5 := by
  cases v with
  | disabled => exact absurd rfl h
  | _ => rfl

theorem getElem_usf_applyResponse (s : State) (i : Fin 4) : (applyResponse s).usf[i] = controlField s i := by
  match i with
  | 0 | 1 | 2 | 3 => rfl

theorem controlField_received {s : State} (hb : BuffersFit s) (hv : s.variant ≠ .disabled) (rest : List Input) (i : Fin 4) :
    controlField (received s rest) i = expand (le16 s.rxbuf ((if s.variant = .pos then 13 else 5) + 2 * i.val)) := by
  rw [controlField, ← controlBase_succ hv, Nat.add_right_comm]
  exact congrArg expand (le16_respbuf_received hb rest (controlBase_fits hv i))

theorem iters_applyResponse_received {s : State} (hb : BuffersFit s) (rest : List Input) :
    (applyResponse (received s rest)).iters = if s.variant = .attIt then le16 s.rxbuf 13 else s.iters :=
  ite_congr rfl (fun h => le16_respbuf_received hb rest (off := itersOffset) (by rw [h]; decide)) fun _ => rfl

/-- Settles O42: every field of the response fits RESPBUF, so it reads the same as in the packet. -/
theorem linkHandlerAppliesAResponse : Obligations.LinkHandlerAppliesAResponse := by
  intro s rest hb hi hn hh hr ha
  have happly : acceptPacket (received s rest) = _ := if_pos ⟨hr, ha⟩
  refine ⟨_, (step_of_good_header hi hn hh).trans (congrArg Host.Outcome.next happly), ?_, fun k hk => ?_, fun i => ?_, rfl⟩
  · rw [← iters_applyResponse_received hb rest, ← rxbuf_received hb rest]
    rfl
  · rw [Nat.add_comm]
    exact byteAt_respbuf_received hb rest hk
  · exact (getElem_usf_applyResponse _ i).trans
      (controlField_received hb (variant_ne_disabled_of_sfActive ha) rest i)

/-- Settles O43: a packet that is not applied is unpacked all the same. -/
theorem linkHandlerDiscardsAStalePacket : Obligations.LinkHandlerDiscardsAStalePacket := by
  intro s rest hb hi hn hh hs
  have hna : ¬ (s.ready = false ∧ sfActive s = true) := by
    rcases hs with h | h <;> simp [h]
  have hstale : acceptPacket (received s rest) = _ := if_neg hna
  refine ⟨_, (step_of_good_header hi hn hh).trans (congrArg Host.Outcome.next hstale), ?_, fun k hk => ?_, rfl⟩
  · rw [← rxbuf_received hb rest]
    rfl
  · rw [Nat.add_comm]
    exact byteAt_respbuf_received hb rest hk

/-- Settles O44: a byte below PKT_LEN lies in RXBUF. -/
theorem transportEventsWriteOnlyTheirTarget : Obligations.TransportEventsWriteOnlyTheirTarget := by
  refine fun s rest => ⟨fun k b hb hi => ?_, step_cons⟩
  by_cases hk : k < s.variant.pktLen
  · refine ⟨_, (step_cons hi).trans (congrArg Host.Outcome.next (if_pos hk)), rfl, length_setByte _ _ _, fun n => ?_⟩
    rw [byteAt_setByte]
    exact if_congr ⟨fun ⟨h, _⟩ => ⟨h.symm, hk⟩, fun ⟨h, _⟩ => ⟨h.symm, by rw [h, hb.rxbuf]; exact hk⟩⟩ rfl rfl
  · exact ⟨_, (step_cons hi).trans (congrArg Host.Outcome.next (if_neg hk)), rfl, rfl,
      fun _ => (if_neg fun h => hk h.2).symm⟩

end Sys2Proof.Machine
end

section
/-! PROOF of O8, O45 and O46 (42_watchdog.md rules R195, R196 and R199): every step answers a next state, and what a step
other than the reset input can do to the state of the link. -/

namespace Sys2Proof.Machine

/-! ## Every step answers -/

theorem runCommand_next (w : Word) (s : State) : ∃ t, runCommand w s = .next t := by
  rw [runCommand]
  split
  · exact exec_next _ s
  · exact ⟨_, rfl⟩

theorem busWrite_next (width : Width) (off : Offset) (v : Word) (s : State) : ∃ t, busWrite width off v s = .next t := by
  rw [busWrite]
  split
  · split
    · exact runCommand_next v _
    · exact ⟨_, rfl⟩
  · exact ⟨_, rfl⟩

theorem runInput_next (e : Input) (s : State) : ∃ t, runInput e s = .next t := by
  cases e with
  | busWrite width off v => exact busWrite_next width off v s
  | _ => exact ⟨_, rfl⟩

/-- Settles O8: of the pending steps only a bus write is not a next state by its form, and it ends in a command or not. -/
theorem everyStepAnswersANextState : Obligations.EveryStepAnswersANextState := by
  intro s
  rw [step, nextStep]
  split
  · exact ⟨_, rfl⟩
  · exact runInput_next _ _

/-! ## What a step can do to the link -/

/-- The cases of a step other than the reset input, by what it does to READY, MISSED, USF and the outbound sequence. -/
inductive LinkEffect (s t : State) : Prop where
  | kept (hl : t.link = s.link)
  | sent (hn : NextCommand s .sfcycle) (ha : sfActive s = true) (hr : s.ready = true) (hready : t.ready = false)
      (he : t.events = s.events ++ [.linkSend s.variant.pktLen t.txbuf])
  | missed (hn : NextCommand s .sfcycle) (hready : t.ready = false) (he : t.events = s.events)
  | forcedStop (hn : NextCommand s .sfcycle) (hm : 200 ≤ s.missed.toNat) (he : t.events = s.events)
      (hstop : t.result = .forcedStop ∧ t.usf = #v[0, 0, 0, 0] ∧ t.u = #v[0, 0, 0, 0])
  | applied (ha : AppliesResponse s) (he : t.events = s.events)
      (hrearm : t.lhres = .applied ∧ t.missed = 0 ∧ t.u = s.u)
  | resync (hkeep : t.ready = s.ready ∧ t.missed = s.missed ∧ t.usf = s.usf)
      (he : t.events = s.events ++ [.linkResync s.variant.pktLen])

theorem linkEffect_safetyCycle {s : State} (hn : NextCommand s .sfcycle) (rest : List Input) (resp : BusResponse) :
    LinkEffect s (safetyCycle { s with inputs := rest, response := resp }) := by
  let r : State := { s with inputs := rest, response := resp }
  change LinkEffect s (safetyCycle r)
  cases ha : sfActive s with
  | false =>
    rw [show safetyCycle r = finish .sfInactive r from if_pos ha]
    exact .kept rfl
  | true =>
    have har : sfActive r = true := ha
    cases hr : s.ready with
    | true => rw [safetyCycle_of_ready har hr]; exact .sent hn ha hr rfl rfl
    | false =>
      rcases lt_or_ge s.missed.toNat 200 with hm | hm
      · rw [safetyCycle_of_missed_lt har hr hm]; exact .missed hn hr rfl
      · rw [safetyCycle_of_le_missed har hr hm]; exact .forcedStop hn hm rfl ⟨rfl, rfl, rfl⟩

theorem linkEffect_linkHandlerStep {s : State} (hi : s.inputs = [] ∨ ∃ rest, s.inputs = .linkHandler :: rest)
    (rest : List Input) : LinkEffect s (linkHandlerStep { s with inputs := rest }) := by
  rcases linkHandlerStep_cases { s with inputs := rest } with ⟨-, h⟩ | ⟨-, -, h⟩ | ⟨hn, hh, h⟩ <;> rw [h]
  · exact .kept rfl
  · exact .resync ⟨rfl, rfl, rfl⟩ rfl
  · rcases acceptPacket_cases (unpacked { s with inputs := rest, notify := false }) with ⟨hr, ha, h⟩ | ⟨-, h⟩ <;> rw [h]
    · exact .applied ⟨hi, hn, hh, hr, ha⟩ rfl ⟨rfl, rfl, rfl⟩
    · exact .kept rfl

theorem link_effect {s t : State} (h : step s = .next t) (hr : ¬ NextReset s) : LinkEffect s t := by
  rcases step_cases s t h with ⟨hi, rfl⟩ | ⟨e, rest, hi, hc⟩
  · exact linkEffect_linkHandlerStep (.inl hi) s.inputs
  cases hc with
  | command w i he hd ht =>
    cases exec_effect ht with
    | kept h => exact .kept h.link
    | setk _ _ _ _ _ _ hl => exact .kept hl
    | sfcycle hs ht => exact ht ▸ linkEffect_safetyCycle ⟨w, rest, he ▸ hi, hs ▸ hd⟩ rest .done
  | illegal w why he hd ht => exact .kept (ht ▸ rfl)
  | write off v he ha hreg ht => exact .kept (ht ▸ (kept_writeReg _ v _).link)
  | answer r ht => exact .kept (ht ▸ rfl)
  | receiveByte k b he ht => exact .kept (ht ▸ (kept_receiveByte k b _).link)
  | receiveNotify he ht => exact .kept (ht ▸ rfl)
  | linkHandler he ht => exact ht ▸ linkEffect_linkHandlerStep (.inr ⟨rest, he ▸ hi⟩) rest
  | reset he ht => exact absurd ⟨rest, he ▸ hi⟩ hr

theorem ready_of_step_sends {s t : State} (h : LinkEffect s t) {n : Nat} {bytes : List Byte}
    (hs : t.events = s.events ++ [.linkSend n bytes]) : s.ready = true ∧ t.ready = false := by
  have hsilent : t.events ≠ s.events := by rw [hs]; simp
  cases h with
  | kept hl => exact absurd (congrArg Link.events hl) hsilent
  | sent _ _ hr hready _ => exact ⟨hr, hready⟩
  | missed _ _ he | forcedStop _ _ he _ | applied _ he _ => exact absurd he hsilent
  | resync _ he => simp [hs] at he

theorem step_rearms_cases {s t : State} (h : LinkEffect s t) (hr : s.ready = false) (hr' : t.ready = true) :
    (t.lhres = .applied ∧ t.missed = 0 ∧ t.u = s.u) ∨
      (t.result = .forcedStop ∧ 200 ≤ s.missed.toNat ∧ t.usf = #v[0, 0, 0, 0] ∧ t.u = #v[0, 0, 0, 0]) := by
  have hne : t.ready ≠ s.ready := by simp [hr, hr']
  cases h with
  | kept hl => exact absurd (congrArg Link.ready hl) hne
  | sent _ _ _ hready _ | missed _ hready _ => exact absurd (hready.trans hr.symm) hne
  | forcedStop _ hm _ hstop => exact .inr ⟨hstop.1, hm, hstop.2⟩
  | applied _ _ hrearm => exact .inl hrearm
  | resync hkeep _ => exact absurd hkeep.1 hne

theorem watchdog_kept {s t : State} (h : LinkEffect s t) (hc : ¬ NextCommand s .sfcycle) (ha : ¬ AppliesResponse s) :
    t.ready = s.ready ∧ t.missed = s.missed ∧ t.usf = s.usf := by
  cases h with
  | kept hl => exact ⟨congrArg Link.ready hl, congrArg Link.missed hl, congrArg Link.usf hl⟩
  | sent hn | missed hn | forcedStop hn => exact absurd hn hc
  | applied h => exact absurd h ha
  | resync hkeep => exact hkeep

/-- Settles O45. -/
theorem atMostOneRequestOutstanding : Obligations.AtMostOneRequestOutstanding := fun _ _ h hr =>
  have he := link_effect h hr
  ⟨fun _ _ => ready_of_step_sends he, step_rearms_cases he, watchdog_kept he⟩

/-- Settles O46: only a send and a resynchronisation reach the outbound sequence. -/
theorem eachStepEmitsAtMostOneEvent : Obligations.EachStepEmitsAtMostOneEvent := by
  intro s t h hr
  cases link_effect h hr with
  | kept hl => exact .inl (congrArg Link.events hl)
  | sent hn ha hready _ he => exact .inr (.inl ⟨t.txbuf, he, rfl, hn, ha, hready⟩)
  | missed _ _ he | forcedStop _ _ he _ | applied _ he _ => exact .inl he
  | resync _ he => exact .inr (.inr he)

end Sys2Proof.Machine
end

section
/-! SUPPORT for O26 to O29 and O60 (00_scope.md rule R9, 43_lqr_matvec.md rule R225): the special values of each operation,
and that the pattern standing for a NaN decides nothing but the pattern of a NaN. -/

namespace Sys2Proof.Machine

/-! ## The classes of a pattern -/

theorem not_isNaN_of_isInf {w : Word} (h : fpIsInf w) : ¬ fpIsNaN w := fun hn => hn.2 h.2

theorem isFinite_of_isZero {w : Word} (h : fpIsZero w) : fpIsFinite w := by
  rw [fpIsFinite, h.1]
  decide

theorem not_isZero_of_isInf {w : Word} (h : fpIsInf w) : ¬ fpIsZero w := fun hz => isFinite_of_isZero hz h.1

theorem isFinite_or_isInf_of_not_isNaN {w : Word} (h : ¬ fpIsNaN w) : fpIsFinite w ∨ fpIsInf w :=
  or_iff_not_imp_left.mpr fun hf => ⟨not_not.mp hf, by_contra fun hfrac => h ⟨not_not.mp hf, hfrac⟩⟩

theorem isNaN_fpNeg_iff (w : Word) : fpIsNaN (fpNeg w) ↔ fpIsNaN w := by rw [fpIsNaN, fpExp_fpNeg, fpFrac_fpNeg]

theorem isInf_fpNeg_iff (w : Word) : fpIsInf (fpNeg w) ↔ fpIsInf w := by rw [fpIsInf, fpExp_fpNeg, fpFrac_fpNeg]

theorem eq_fpInf_of_isInf {w : Word} (h : fpIsInf w) : w = fpInf (fpSign w) := by
  conv_lhs => rw [← pattern_of_fields w, h.1, h.2]
  rfl

theorem eq_fpPattern_zero_of_isZero {w : Word} (h : fpIsZero w) : w = fpPattern (fpSign w) 0 := by
  conv_lhs => rw [← pattern_of_fields w, h.1, h.2]
  rfl

theorem fpMag_of_isZero {w : Word} (h : fpIsZero w) : fpMag w = 0 := by rw [fpMag, if_pos h.1, h.2]

theorem fpScaled_of_isZero {w : Word} (h : fpIsZero w) : fpScaled w = 0 := by
  rw [fpScaled, fpMag_of_isZero h]
  exact ite_self _

theorem isZero_of_fpScaled_eq_zero {w : Word} (h : fpScaled w = 0) : fpIsZero w := by
  by_contra hz
  have hpos := fpMag_pos_of_not_isZero hz
  rw [fpScaled] at h
  split at h <;> omega

theorem natAbs_fpScaled (w : Word) : (fpScaled w).natAbs = fpMag w := by
  rw [fpScaled]
  split <;> omega

theorem decide_fpScaled_neg {w : Word} (h : fpScaled w ≠ 0) : decide (fpScaled w < 0) = fpSign w := by
  cases hs : fpSign w with
  | false => exact decide_eq_false (by simp [fpScaled, hs])
  | true =>
    have hneg : fpScaled w = -(fpMag w : Int) := if_pos hs
    exact decide_eq_true (by omega)

theorem not_isNaN_fpInf (neg : Bool) : ¬ fpIsNaN (fpInf neg) := by cases neg <;> decide

theorem isZero_fpPattern_zero (neg : Bool) : fpIsZero (fpPattern neg 0) := by cases neg <;> decide

/-! ## Special operands -/

section
variable {nan a b : Word}

theorem mul32_comm : mul32 nan a b = mul32 nan b a := by
  simp only [mul32, or_comm, Bool.xor_comm, Nat.mul_comm]

theorem mul32_of_isNaN (h : fpIsNaN a ∨ fpIsNaN b) : mul32 nan a b = nan := if_pos h

theorem add32_of_isNaN (h : fpIsNaN a ∨ fpIsNaN b) : add32 nan a b = nan := if_pos h

theorem sub32_of_isNaN (h : fpIsNaN a ∨ fpIsNaN b) : sub32 nan a b = nan :=
  add32_of_isNaN (h.imp_right (isNaN_fpNeg_iff b).mpr)

theorem div32_of_isNaN (h : fpIsNaN a ∨ fpIsNaN b) : div32 nan a b = nan := if_pos h

theorem mul32_of_isInf (ha : fpIsInf a) (hb : ¬ fpIsNaN b) :
    mul32 nan a b = if fpIsZero b then nan else fpInf (fpSign a != fpSign b) := by
  rw [mul32, if_neg (not_or.mpr ⟨not_isNaN_of_isInf ha, hb⟩), if_pos (.inl ha)]
  simp only [not_isZero_of_isInf ha, false_or]

theorem add32_of_isInf (ha : fpIsInf a) (hb : ¬ fpIsNaN b) :
    add32 nan a b = if fpIsInf b ∧ fpSign a ≠ fpSign b then nan else a := by
  rw [add32, if_neg (not_or.mpr ⟨not_isNaN_of_isInf ha, hb⟩), if_pos ha]

theorem add32_of_isFinite_of_isInf (ha : fpIsFinite a) (hb : fpIsInf b) : add32 nan a b = b := by
  rw [add32, if_neg (not_or.mpr ⟨not_isNaN_of_isFinite ha, not_isNaN_of_isInf hb⟩),
    if_neg (not_isInf_of_isFinite ha), if_pos hb]

theorem sub32_of_isInf (ha : fpIsInf a) (hb : ¬ fpIsNaN b) :
    sub32 nan a b = if fpIsInf b ∧ fpSign a = fpSign b then nan else a := by
  rw [sub32, add32_of_isInf ha (not_isNaN_fpNeg hb), fpSign_fpNeg]
  simp only [isInf_fpNeg_iff, ne_eq, Bool.eq_not, not_not]

theorem sub32_of_isFinite_of_isInf (ha : fpIsFinite a) (hb : fpIsInf b) : sub32 nan a b = fpInf (!fpSign b) := by
  have hneg : fpIsInf (fpNeg b) := (isInf_fpNeg_iff b).mpr hb
  rw [sub32, add32_of_isFinite_of_isInf ha hneg, ← fpSign_fpNeg]
  exact eq_fpInf_of_isInf hneg

theorem div32_of_isInf (ha : fpIsInf a) (hb : ¬ fpIsNaN b) :
    div32 nan a b = if fpIsInf b then nan else fpInf (fpSign a != fpSign b) := by
  rw [div32, if_neg (not_or.mpr ⟨not_isNaN_of_isInf ha, hb⟩), if_pos ha]

theorem div32_of_isFinite_of_isInf (ha : fpIsFinite a) (hb : fpIsInf b) :
    div32 nan a b = fpPattern (fpSign a != fpSign b) 0 := by
  rw [div32, if_neg (not_or.mpr ⟨not_isNaN_of_isFinite ha, not_isNaN_of_isInf hb⟩),
    if_neg (not_isInf_of_isFinite ha), if_pos hb]

theorem div32_of_isFinite_of_isZero (ha : fpIsFinite a) (hb : fpIsZero b) :
    div32 nan a b = if fpIsZero a then nan else fpInf (fpSign a != fpSign b) := by
  have hfin := isFinite_of_isZero hb
  rw [div32, if_neg (not_or.mpr ⟨not_isNaN_of_isFinite ha, not_isNaN_of_isFinite hfin⟩),
    if_neg (not_isInf_of_isFinite ha), if_neg (not_isInf_of_isFinite hfin), if_pos hb]

/-! ## Zeros -/

theorem mul32_of_isFinite_of_isZero (ha : fpIsFinite a) (hb : fpIsZero b) :
    mul32 nan a b = fpPattern (fpSign a != fpSign b) 0 := by
  rw [mul32_of_isFinite ha (isFinite_of_isZero hb), fpMag_of_isZero hb, Nat.mul_zero]
  rfl

/-- +0.0 plus a zero of either sign is +0.0 (R9). -/
theorem add32_zero_of_isZero (hb : fpIsZero b) : add32 nan 0x00000000 b = 0x00000000 := by
  have hzero : fpIsZero 0x00000000 := by decide
  have hsum : fpScaled 0x00000000 + fpScaled b = 0 := by rw [fpScaled_of_isZero hzero, fpScaled_of_isZero hb]; rfl
  rw [add32_exact_zero (isFinite_of_isZero hzero) (isFinite_of_isZero hb) hsum]
  exact if_neg fun h => absurd h.1 (by decide)

/-- A finite value minus +0.0 is its own pattern, -0.0 included (R223). -/
theorem sub32_zero_of_isFinite (ha : fpIsFinite a) : sub32 nan a 0x00000000 = a := by
  have hb : fpIsFinite (fpNeg 0x00000000) := by decide
  have hsum : fpScaled a + fpScaled (fpNeg 0x00000000) = fpScaled a := Int.add_zero _
  rw [sub32, add32_of_isFinite ha hb, hsum]
  split
  · next h0 =>
    rw [show fpSign (fpNeg 0x00000000) = true from rfl, Bool.and_true]
    exact (eq_fpPattern_zero_of_isZero (isZero_of_fpScaled_eq_zero h0)).symm
  · next h0 => rw [decide_fpScaled_neg h0, natAbs_fpScaled, roundMag_fpMag a ha, pattern_of_fields]

theorem sub32_zero_of_not_isNaN (ha : ¬ fpIsNaN a) : sub32 nan a 0x00000000 = a := by
  rcases isFinite_or_isInf_of_not_isNaN ha with hf | hi
  · exact sub32_zero_of_isFinite hf
  · rw [sub32_of_isInf hi (by decide)]
    exact if_neg fun h => absurd h.1 (by decide)

end

/-! ## The part of the NaN pattern -/

/-- A result is the NaN pattern, whichever that is, or one value that is no NaN, whatever the NaN pattern is. -/
def NaNOrFixed (f : Word → Word) : Prop := (∀ nan, f nan = nan) ∨ ∃ c, ¬ fpIsNaN c ∧ ∀ nan, f nan = c

theorem NaNOrFixed.eq_of_isNaN {f : Word → Word} (hf : NaNOrFixed f) {nan : Word} (h : fpIsNaN (f nan)) :
    f nan = nan := by
  rcases hf with hf | ⟨c, hc, hf⟩
  · exact hf nan
  · exact absurd (hf nan ▸ h) hc

theorem nanOrFixed_mul32_of_isInf {a b : Word} (ha : fpIsInf a) (hb : ¬ fpIsNaN b) :
    NaNOrFixed fun nan => mul32 nan a b := by
  by_cases hz : fpIsZero b
  · exact .inl fun _ => (mul32_of_isInf ha hb).trans (if_pos hz)
  · exact .inr ⟨_, not_isNaN_fpInf _, fun _ => (mul32_of_isInf ha hb).trans (if_neg hz)⟩

theorem nanOrFixed_mul32 (a b : Word) : NaNOrFixed fun nan => mul32 nan a b := by
  by_cases hn : fpIsNaN a ∨ fpIsNaN b
  · exact .inl fun _ => mul32_of_isNaN hn
  obtain ⟨ha, hb⟩ := not_or.mp hn
  rcases isFinite_or_isInf_of_not_isNaN ha with hfa | hia
  · rcases isFinite_or_isInf_of_not_isNaN hb with hfb | hib
    · exact .inr ⟨_, not_isNaN_round _ _ _, fun _ => mul32_of_isFinite hfa hfb⟩
    · simpa only [mul32_comm] using nanOrFixed_mul32_of_isInf hib ha
  · exact nanOrFixed_mul32_of_isInf hia hb

theorem nanOrFixed_add32 (a b : Word) : NaNOrFixed fun nan => add32 nan a b := by
  by_cases hn : fpIsNaN a ∨ fpIsNaN b
  · exact .inl fun _ => add32_of_isNaN hn
  obtain ⟨ha, hb⟩ := not_or.mp hn
  rcases isFinite_or_isInf_of_not_isNaN ha with hfa | hia
  · rcases isFinite_or_isInf_of_not_isNaN hb with hfb | hib
    · refine .inr ⟨_, ?_, fun _ => add32_of_isFinite hfa hfb⟩
      split
      · exact not_isNaN_of_isFinite (isFinite_of_isZero (isZero_fpPattern_zero _))
      · exact not_isNaN_round _ _ _
    · exact .inr ⟨b, hb, fun _ => add32_of_isFinite_of_isInf hfa hib⟩
  · by_cases hopp : fpIsInf b ∧ fpSign a ≠ fpSign b
    · exact .inl fun _ => (add32_of_isInf hia hb).trans (if_pos hopp)
    · exact .inr ⟨a, ha, fun _ => (add32_of_isInf hia hb).trans (if_neg hopp)⟩

/-- Two results are the same, or each is a NaN. -/
def SameOrNaN (x y : Word) : Prop := y = x ∨ (fpIsNaN x ∧ fpIsNaN y)

theorem SameOrNaN.fpNeg {x y : Word} (h : SameOrNaN x y) : SameOrNaN (fpNeg x) (fpNeg y) :=
  h.imp (congrArg _) (And.imp (isNaN_fpNeg_iff x).mpr (isNaN_fpNeg_iff y).mpr)

section
variable {nan nan' : Word} (hn : fpIsNaN nan) (hn' : fpIsNaN nan')
include hn hn'

theorem NaNOrFixed.sameOrNaN {f : Word → Word} (hf : NaNOrFixed f) : SameOrNaN (f nan) (f nan') := by
  rcases hf with hf | ⟨c, -, hf⟩
  · exact .inr ⟨(hf nan).symm ▸ hn, (hf nan').symm ▸ hn'⟩
  · exact .inl ((hf nan').trans (hf nan).symm)

theorem sameOrNaN_add32 {a a' b b' : Word} (ha : SameOrNaN a a') (hb : SameOrNaN b b') :
    SameOrNaN (add32 nan a b) (add32 nan' a' b') := by
  rcases ha with rfl | ⟨hna, hna'⟩
  · rcases hb with rfl | ⟨hnb, hnb'⟩
    · exact (nanOrFixed_add32 _ _).sameOrNaN hn hn'
    · rw [add32_of_isNaN (.inr hnb), add32_of_isNaN (.inr hnb')]
      exact .inr ⟨hn, hn'⟩
  · rw [add32_of_isNaN (.inl hna), add32_of_isNaN (.inl hna')]
    exact .inr ⟨hn, hn'⟩

theorem sameOrNaN_dotProduct (row err : List Word) : SameOrNaN (dotProduct nan row err) (dotProduct nan' row err) :=
  List.foldl_rel (.inl rfl) fun p _ _ _ hacc =>
    sameOrNaN_add32 hn hn' hacc ((nanOrFixed_mul32 p.1 p.2).sameOrNaN hn hn')

end

end Sys2Proof.Machine
end

section
/-! PROOF of O60 (43_lqr_matvec.md rule R225): one table entry per clause. -/

namespace Sys2Proof.Machine

/-- Settles O60: each clause is a branch of its operation's special operands. -/
theorem specialValuesOfProductsAndSums : Obligations.SpecialValuesOfProductsAndSums := by
  intro nan a b
  refine ⟨fun h => ⟨mul32_of_isNaN h, add32_of_isNaN h, sub32_of_isNaN h, div32_of_isNaN h⟩,
    fun ha hb hz => ?_, fun ha hb => ?_, fun ha hz => ?_, fun ha hb hs => ?_, fun ha hb hs => ?_, fun ha hb => ?_,
    fun ha hb => ?_, fun ha hb => ?_, fun ha hb => ?_, fun ha hz hb => ?_, div32_of_isFinite_of_isInf⟩
  · have hmul := (mul32_of_isInf (nan := nan) ha (not_isNaN_of_isFinite hb)).trans (if_neg hz)
    exact ⟨hmul, mul32_comm.trans hmul⟩
  · exact (mul32_of_isInf ha (not_isNaN_of_isInf hb)).trans (if_neg (not_isZero_of_isInf hb))
  · have hmul := (mul32_of_isInf (nan := nan) ha (not_isNaN_of_isFinite (isFinite_of_isZero hz))).trans (if_pos hz)
    exact ⟨hmul, mul32_comm.trans hmul⟩
  · exact ⟨(add32_of_isInf ha (not_isNaN_of_isInf hb)).trans (if_pos ⟨hb, hs⟩),
      (sub32_of_isInf ha (not_isNaN_of_isInf hb)).trans (if_neg fun h => hs h.2)⟩
  · exact ⟨(add32_of_isInf ha (not_isNaN_of_isInf hb)).trans (if_neg fun h => h.2 hs),
      (sub32_of_isInf ha (not_isNaN_of_isInf hb)).trans (if_pos ⟨hb, hs⟩)⟩
  · have hbi := not_isInf_of_isFinite hb
    exact ⟨(add32_of_isInf ha (not_isNaN_of_isFinite hb)).trans (if_neg fun h => hbi h.1),
      add32_of_isFinite_of_isInf hb ha,
      (sub32_of_isInf ha (not_isNaN_of_isFinite hb)).trans (if_neg fun h => hbi h.1),
      sub32_of_isFinite_of_isInf hb ha⟩
  · exact (div32_of_isInf ha (not_isNaN_of_isInf hb)).trans (if_pos hb)
  · exact (div32_of_isFinite_of_isZero (isFinite_of_isZero ha) hb).trans (if_pos ha)
  · exact (div32_of_isInf ha (not_isNaN_of_isFinite hb)).trans (if_neg (not_isInf_of_isFinite hb))
  · exact (div32_of_isFinite_of_isZero ha hb).trans (if_neg hz)

end Sys2Proof.Machine
end

section
/-! PROOF of O26 to O30 (43_lqr_matvec.md rules R220 to R225): the components of MATVEC. -/

namespace Sys2Proof.Machine

/-! ## The components -/

theorem getElem_u_of_exec_matvec {s t : State} (h : exec .matvec s = .next t) (i : Fin 4) : t.u[i] = controlRow s i := by
  cases h
  fin_cases i <;> rfl

section
variable {n : Nat} (hn : n ≤ 9) (nan : Word) (row : Vector Word n) (err : Vector Word 9)

/-- The nth gain of a row is paired with the nth error; errors past the row's end have no pair (R220). -/
theorem zip_toList : row.toList.zip err.toList = (List.finRange n).map fun j => (row[j], err[j.val]) :=
  List.ext_getElem (by simpa using hn) (by simp)

/-- The columns in increasing order (R220, R221). -/
theorem dotProduct_toList :
    dotProduct nan row.toList err.toList =
      (List.finRange n).foldl (fun acc j => add32 nan acc (mul32 nan row[j] err[j.val])) 0x00000000 := by
  rw [dotProduct, zip_toList hn, List.foldl_map]

/-- A product with a zero is a zero, which leaves the +0.0 of the sum (R223). -/
theorem dotProduct_of_isZero (herr : ∀ j : Fin n, fpIsZero err[j.val]) (hrow : ∀ j : Fin n, fpIsFinite row[j]) :
    dotProduct nan row.toList err.toList = 0x00000000 := by
  rw [dotProduct_toList hn]
  refine List.foldl_fixed' (fun j => ?_) _
  rw [mul32_of_isFinite_of_isZero (hrow j) (herr j)]
  exact add32_zero_of_isZero (isZero_fpPattern_zero _)

end

theorem activeRow_of_k9 {s : State} (h : s.lqr6 = false) (i : Fin 4) : activeRow s i = s.k9[i].toList :=
  if_neg (by simp [h])

theorem activeRow_of_k6 {s : State} (h : s.lqr6 = true) (i : Fin 4) : activeRow s i = s.k6[i].toList := if_pos h

/-- Settles O26: the row of the active matrix has 9 or 6 columns, and the error vector no fewer. -/
theorem matvecComputesTheControl : Obligations.MatvecComputesTheControl := by
  intro s
  refine ⟨_, rfl, rfl, fun i => ⟨fun h => ?_, fun h => ?_⟩⟩ <;> rw [getElem_u_of_exec_matvec rfl, controlRow]
  · rw [activeRow_of_k9 h, dotProduct_toList le_rfl]
    rfl
  · rw [activeRow_of_k6 h, dotProduct_toList (by decide)]

/-- Settles O27: a difference that is a NaN is the drawn one. -/
theorem matvecNaNIsQuiet : Obligations.MatvecNaNIsQuiet := by
  intro s t i h hn
  rw [getElem_u_of_exec_matvec h, controlRow] at hn ⊢
  rw [sub32, (nanOrFixed_add32 _ _).eq_of_isNaN hn]
  exact (fpIsQuietNaN_drawnNaN _).2

/-- Settles O28: no operand but the drawn pattern differs, and no draw reaches a result that is not a NaN. -/
theorem matvecIsAFunctionOfItsOperands : Obligations.MatvecIsAFunctionOfItsOperands := by
  intro s s' t t' i hmode herr hff hk9 hk6 h h'
  have hrow : activeRow s' i = activeRow s i := by
    cases hm : s.lqr6 with
    | false => rw [activeRow_of_k9 hm, activeRow_of_k9 (hmode.trans hm), hk9 hm]
    | true => rw [activeRow_of_k6 hm, activeRow_of_k6 (hmode.trans hm), hk6 hm]
  have hn := (fpIsQuietNaN_drawnNaN (s.draws + i.val)).1
  have hn' := (fpIsQuietNaN_drawnNaN (s'.draws + i.val)).1
  rw [getElem_u_of_exec_matvec h, getElem_u_of_exec_matvec h', controlRow, controlRow, hrow, herr, hff]
  exact sameOrNaN_add32 hn hn' (.inl rfl) (sameOrNaN_dotProduct hn hn' _ _).fpNeg

/-- Settles O29: the sum of products is +0.0, and FF minus +0.0 is FF. -/
theorem zeroErrorGivesFeedforward : Obligations.ZeroErrorGivesFeedforward := by
  intro s h9 h6
  refine ⟨_, rfl, fun i => ?_⟩
  have hdot (nan : Word) : dotProduct nan (activeRow s i) s.err.toList = 0x00000000 := by
    cases hm : s.lqr6 with
    | false =>
      obtain ⟨herr, hgain⟩ := h9 hm
      rw [activeRow_of_k9 hm]
      exact dotProduct_of_isZero le_rfl nan _ _ herr (hgain i)
    | true =>
      obtain ⟨herr, hgain⟩ := h6 hm
      rw [activeRow_of_k6 hm]
      exact dotProduct_of_isZero (by decide) nan _ _ herr (hgain i)
  rw [getElem_u_of_exec_matvec rfl, controlRow, hdot]
  refine ⟨sub32_zero_of_not_isNaN, fun hn => ?_⟩
  rw [sub32_of_isNaN (.inl hn)]
  exact (fpIsQuietNaN_drawnNaN _).1

/-- Settles O30: SETMODE writes only MODE and RESULT, and MATVEC reads no RESULT. -/
theorem modeSwitchAndBackChangesNoControl : Obligations.ModeSwitchAndBackChangesNoControl := fun _ _ =>
  ⟨_, _, _, _, rfl, rfl, rfl, rfl, rfl, rfl, rfl, rfl, rfl⟩

end Sys2Proof.Machine
end

section
/-! PROOF of O31 and O32 (43_lqr_matvec.md rules R226 and R227): SETK. -/

namespace Sys2Proof.Machine

theorem exec_setk_of_lt {bank : Bank} {j : Nat} (h : j < bank.cols) (i : Fin 4) (rs : DReg) (s : State) :
    exec (.setk bank i j rs) s = .next (finish .ok (writeGain bank i j (readD s rs) s)) :=
  congrArg Host.Outcome.next (if_pos h)

theorem exec_setk_of_le {bank : Bank} {j : Nat} (h : bank.cols ≤ j) (i : Fin 4) (rs : DReg) (s : State) :
    exec (.setk bank i j rs) s = .next (fail .badIndex .badIndex s) :=
  congrArg Host.Outcome.next (if_neg (Nat.not_lt.mpr h))

/-- A write to one entry of a matrix leaves the others. -/
theorem getElem_set_setIfInBounds {m n : Nat} (mat : Vector (Vector Word m) n) (i r : Fin n) (c : Fin m) (j : Nat)
    (v : Word) :
    (mat.set i (mat[i].setIfInBounds j v) i.isLt)[r][c] = if r = i ∧ c.val = j then v else mat[r][c] := by
  by_cases hr : r = i
  · subst hr
    simp [Vector.getElem_setIfInBounds, eq_comm]
  · simp [hr, Fin.val_ne_iff.mpr (Ne.symm hr)]

theorem getElem_writeGain_k9 (bank : Bank) (i r : Fin 4) (c : Fin 9) (j : Nat) (v : Word) (s : State) :
    (writeGain bank i j v s).k9[r][c] = if bank = .k9 ∧ r = i ∧ c.val = j then v else s.k9[r][c] := by
  cases bank with
  | k9 => exact (getElem_set_setIfInBounds s.k9 i r c j v).trans (by simp)
  | k6 => exact (if_neg fun h => nomatch h.1).symm

theorem getElem_writeGain_k6 (bank : Bank) (i r : Fin 4) (c : Fin 6) (j : Nat) (v : Word) (s : State) :
    (writeGain bank i j v s).k6[r][c] = if bank = .k6 ∧ r = i ∧ c.val = j then v else s.k6[r][c] := by
  cases bank with
  | k9 => exact (if_neg fun h => nomatch h.1).symm
  | k6 => exact (getElem_set_setIfInBounds s.k6 i r c j v).trans (by simp)

/-- Settles O31: SETK is one gain write, whose frame and entries are known. -/
theorem setkWritesOneGainEntry : Obligations.SetkWritesOneGainEntry := fun s bank i j rs h =>
  ⟨_, exec_setk_of_lt h i rs s, congrArg (finish .ok) (writeGain_frame bank i j _ s),
    fun r c => getElem_writeGain_k9 bank i r c j _ s, fun r c => getElem_writeGain_k6 bank i r c j _ s⟩

/-- Settles O32: K9 has 9 columns and K6 has 6. -/
theorem setkRejectsABadColumn : Obligations.SetkRejectsABadColumn := fun s i _ rs =>
  ⟨fun h => exec_setk_of_le (bank := .k9) h i rs s, fun h => exec_setk_of_le (bank := .k6) h i rs s⟩

end Sys2Proof.Machine
end

section
/-! PROOF of O9 and O10 (44_system.md rules R250 and R251): NOP and SETMODE. -/

namespace Sys2Proof.Machine

theorem exec_nop (s : State) : exec .nop s = .next (finish .ok s) := rfl

theorem exec_setmode (m : Bool) (s : State) : exec (.setmode m) s = .next (finish .ok { s with lqr6 := m }) := rfl

theorem readReg_mode (s : State) : readReg .mode s = if s.lqr6 then 1 else 0 := by
  rw [readReg, modeWord]
  cases s.lqr6 <;> rfl

/-- Settles O9: NOP is `finish`, which writes RESULT only. -/
theorem nopCompletes : Obligations.NopCompletes := fun s => ⟨exec_nop s, rfl⟩

/-- Settles O10: MODE reads the bit that SETMODE writes, and `finish` keeps it. -/
theorem setmodeSelectsTheLaw : Obligations.SetmodeSelectsTheLaw := fun s m =>
  ⟨_, exec_setmode m s, rfl, readReg_mode _⟩

end Sys2Proof.Machine
end

section
/-! PROOF of O55 and O56 (70_reset_and_hazards.md rules R290 to R292): the state after reset, and the reset input. -/

namespace Sys2Proof.Machine

/-- R27, R28, R290: of the status bits only READY's mirror, bit 16, is set. -/
theorem statusWord_powerOn (v : SfVariant) : statusWord (State.powerOn v) = 0x00010000 := by
  simp [statusWord, State.powerOn]

/-- R290: an entry of a vector of zeros, as every data register is after reset. -/
theorem getElem_replicate_zero {n : Nat} (i : Fin n) : (Vector.replicate n (0 : Word))[i] = 0 :=
  Vector.getElem_replicate i.isLt

/-- R292: the pending reset input is taken off, and the block's own state is that of leaving reset. -/
theorem step_resetInput {s : State} {rest : List Input} (h : s.inputs = .reset :: rest) :
    step s = .next (resetInput { s with inputs := rest }) :=
  step_cons h

/-- Settles O55: the words that R290 lists are those of `State.powerOn` for every variant, each data register is a vector of
zeros, and the gains, the buffers and the events are the ones `State.powerOn` sets. -/
theorem resetLeavesTheResetValues : Obligations.ResetLeavesTheResetValues :=
  ⟨rfl, readReg_mode _, statusWord_powerOn _, rfl, rfl,
    rfl, rfl,
    rfl, rfl, rfl,
    getElem_replicate_zero, fun j => ⟨getElem_replicate_zero j, getElem_replicate_zero j⟩,
    fun i => ⟨getElem_replicate_zero i, getElem_replicate_zero i, getElem_replicate_zero i⟩,
    rfl, rfl,
    rfl, rfl, rfl, rfl,
    rfl⟩

/-- Settles O56: `resetInput` is `State.powerOn` of the block's variant but for the pending steps and the draws. -/
theorem resetInputRestoresTheResetState : Obligations.ResetInputRestoresTheResetState :=
  ⟨rfl, fun _ _ => step_resetInput⟩

end Sys2Proof.Machine
end

section
/-! PROOF of O7 (20_memory.md rule R75, 42_watchdog.md rule R190): the step of the idle block. -/

namespace Sys2Proof.Machine

theorem step_nil {s : State} (h : s.inputs = []) : step s = .next (linkHandlerStep s) := by
  rw [step, nextStep, h, idleStep]

theorem linkHandlerStep_of_notify_eq_false {s : State} (h : s.notify = false) : linkHandlerStep s = s := by
  rw [linkHandlerStep, h, if_neg Bool.false_ne_true]

/-- R74: a pending LH step is the idle step of the state with no step pending, whether or not it is enabled. -/
theorem step_eq_step_linkHandler {s : State} (h : s.inputs = []) :
    step s = step { s with inputs := [.linkHandler] } := by
  rw [step_nil h, step_cons (s := { s with inputs := [.linkHandler] }) rfl, runInput, ← h]

/-- Settles O7: the idle step is the LH step, which is not enabled while NOTIFY is 0. -/
theorem idleBlockTakesLinkHandlerOrWaits : Obligations.IdleBlockTakesLinkHandlerOrWaits := fun s hi =>
  ⟨fun _ => step_eq_step_linkHandler hi,
    fun hn => by rw [step_nil hi, linkHandlerStep_of_notify_eq_false hn]⟩

end Sys2Proof.Machine
end
